-- ==== Sys2Proof/Word.lean ====
section
/-! DEFINITION. The machine word and its plainest arithmetic (spec 00_scope.md R5, R7, R8, R9). -/

namespace Sys2Proof

/-- A machine word: an unsigned integer in 0 to 65535 (R7). It is also a word address (R31). -/
abbrev Word := BitVec 16

/-- `trunc16(v)` of R9, for a natural number: `v mod 65536`. -/
def trunc16 (v : Nat) : Word := BitVec.ofNat 16 v

/-- `trunc16(v)` of R9, for any integer, negative ones included: `trunc16(-1) = 0xFFFF`. -/
def truncInt16 (v : Int) : Word := BitVec.ofInt 16 v

/-- The number of words of memory, and the modulus of all word arithmetic (R5, R7). -/
abbrev wordCount : Nat := 65536

end Sys2Proof
end

