-- ==== Sys2Proof/Config.lean ====
section
/-! DEFINITION. The implementation parameters of spec 00_scope.md R6, with the defaults the spec gives them. -/

namespace Sys2Proof

/-- `DIV_O_MODE` (R6, R148, decision D12): which value DIV writes to O when the divisor is not zero. -/
inductive DivOMode where
  | quotient
  | dividend
  deriving DecidableEq, Repr

/-- `SHIFT_COUNT_MODE` (R6, R160, decision D13): how SHL and SHR treat a shift count of 32 or more. -/
inductive ShiftCountMode where
  | unbounded
  | mask5
  deriving DecidableEq, Repr

/-- `NONBASIC_RESERVED` (R6, R210, decision D3): what a non-basic opcode other than 0 and `JSR_OPCODE` does. -/
inductive ReservedMode where
  | fault
  | nop
  deriving DecidableEq, Repr

/-- The parameters of R6 that some rule of the core reads (assumptions 2 and 9). `jsrOpcode` is `JSR_OPCODE`, `fetchCost` is
`FETCH_COST`. A machine is built with one value of this record and never changes it. -/
structure Config where
  divOMode         : DivOMode
  shiftCountMode   : ShiftCountMode
  jsrOpcode        : Nat
  nonbasicReserved : ReservedMode
  fetchCost        : Nat
  deriving DecidableEq, Repr

/-- The defaults of R6. A claim about this record is a claim about the defaults only (R6). -/
def Config.default : Config where
  divOMode         := .quotient
  shiftCountMode   := .unbounded
  jsrOpcode        := 1
  nonbasicReserved := .fault
  fetchCost        := 0

/-- `DISPLAY_BASE` (R6, R57, decision D23): OPEN. No rule of the core reads it, and nothing of this model does
(assumption 8). -/
opaque Config.displayBase : Word

/-- `ASM_SHORT_LITERALS` (R6, R95, decision D26): OPEN, a choice of the assembler outside the hardware.
No rule of the core reads it, and nothing of this model does (assumption 8). -/
opaque Config.asmShortLiterals : Bool

end Sys2Proof
end

