-- ==== Sys2Proof/Syntax.lean ====
section
/-! DEFINITION. The instructions as syntax: every row of spec/opcode_table.json, with the 64 operand encodings of R75. -/

namespace Sys2Proof

/-- The eight general registers in the order of their numbers, A = 0 to J = 7 (R20, R21). -/
inductive Reg where
  | A | B | C | X | Y | Z | I | J
  deriving DecidableEq, Repr

/-- An operand (R75). A word-extending form carries the extension word that follows it in the instruction stream. -/
inductive Operand where
  /-- 0x00 to 0x07: the register (R104). -/
  | reg (r : Reg)
  /-- 0x08 to 0x0F: memory at the register (R105). -/
  | ind (r : Reg)
  /-- 0x10 to 0x17: memory at extension word plus register (R106). -/
  | idx (nw : Word) (r : Reg)
  /-- 0x18 (R110). -/
  | pop
  /-- 0x19 (R111). -/
  | peek
  /-- 0x1A (R112). -/
  | push
  /-- 0x1B (R113). -/
  | sp
  /-- 0x1C (R114). -/
  | pc
  /-- 0x1D (R115). -/
  | o
  /-- 0x1E: memory at the extension word (R116). -/
  | nextInd (nw : Word)
  /-- 0x1F: the extension word itself (R117). -/
  | nextLit (nw : Word)
  /-- 0x20 to 0x3F: the value 0 to 31 (R118). -/
  | lit (v : Nat)
  deriving DecidableEq, Repr

/-- One constructor for each row of spec/opcode_table.json (R77, R78). `a` is operand A, `b` operand B (R10). -/
inductive Instr where
  | set (a b : Operand)
  | add (a b : Operand)
  | sub (a b : Operand)
  | mul (a b : Operand)
  | div (a b : Operand)
  | mod (a b : Operand)
  | shl (a b : Operand)
  | shr (a b : Operand)
  | and (a b : Operand)
  | or (a b : Operand)
  | xor (a b : Operand)
  | ife (a b : Operand)
  | ifn (a b : Operand)
  | ifg (a b : Operand)
  | ifb (a b : Operand)
  /-- `field` is bits [15:10] of the halt word, which the machine ignores (R83, R201). It stands in the
  syntax so that no bit of the word is lost (DESIGN CHOICE, safe: assumption 13). -/
  | hlt (field : Nat)
  | jsr (a : Operand)
  deriving DecidableEq, Repr

end Sys2Proof
end

