-- ==== Sys2Proof/WellFormed.lean ====
section
/-! DEFINITION. Which instructions have an encoding, and which parameter values R6 allows. -/

namespace Sys2Proof

/-- A small literal is 0 to 31 (R75, R118); every other form is tight by its type. -/
def Operand.wf : Operand → Bool
  | .lit v => decide (v < 32)
  | .reg _ | .ind _ | .idx _ _ | .pop | .peek | .push | .sp | .pc | .o | .nextInd _ | .nextLit _ => true

/-- Both operands are well formed; the ignored field of HLT has 6 bits (R73, R83). -/
def Instr.wf : Instr → Bool
  | .set a b | .add a b | .sub a b | .mul a b | .div a b | .mod a b | .shl a b | .shr a b
  | .and a b | .or a b | .xor a b | .ife a b | .ifn a b | .ifg a b | .ifb a b => a.wf && b.wf
  | .hlt field => decide (field < 64)
  | .jsr a => a.wf

/-- `JSR_OPCODE` is 1 to 63 (R6). -/
def Config.wf (cfg : Config) : Bool := decide (1 ≤ cfg.jsrOpcode) && decide (cfg.jsrOpcode ≤ 63)

end Sys2Proof
end

