-- ==== Sys2Proof/Decode.lean ====
section
/-! DEFINITION. From words to instructions and back: the formats, operand encodings and opcode maps of spec
30_encoding.md R70 to R84. -/

namespace Sys2Proof

/-- `w[3:0]`: the basic opcode (R8, R72). -/
def opField (w : Word) : Nat := w.toNat % 16

/-- `w[9:4]`: operand A of a basic instruction, or the non-basic opcode (R8, R72, R73). -/
def midField (w : Word) : Nat := w.toNat / 16 % 64

/-- `w[15:10]`: operand B of a basic instruction, or the sole operand of a non-basic one (R8, R72, R73). -/
def topField (w : Word) : Nat := w.toNat / 1024

/-- `ext(enc)` of R80: the number of extension words the encoding consumes. -/
def ext (enc : Nat) : Nat :=
  if (0x10 ≤ enc ∧ enc ≤ 0x17) ∨ enc = 0x1E ∨ enc = 0x1F then 1 else 0

/-- The length in words of the instruction whose first word is `w`, for any word at all (R80). In a non-basic
word bits [9:4] are the opcode and add nothing. -/
def len (w : Word) : Nat :=
  if opField w = 0 then 1 + ext (topField w) else 1 + ext (midField w) + ext (topField w)

/-- The register with a given number (R21). -/
def Reg.ofNum : Nat → Option Reg
  | 0 => some .A
  | 1 => some .B
  | 2 => some .C
  | 3 => some .X
  | 4 => some .Y
  | 5 => some .Z
  | 6 => some .I
  | 7 => some .J
  | _ => none

/-- The number of a register (R21). -/
def Reg.num : Reg → Nat
  | .A => 0
  | .B => 1
  | .C => 2
  | .X => 3
  | .Y => 4
  | .Z => 5
  | .I => 6
  | .J => 7

/-- The operand that encoding `enc` names, `nw` being the word that follows in the stream (R75, R76). A value
outside 0x00 to 0x3F names none (R119). -/
def decodeOperand (enc : Nat) (nw : Word) : Option Operand :=
  if enc < 0x08 then (Reg.ofNum enc).map .reg
  else if enc < 0x10 then (Reg.ofNum (enc - 0x08)).map .ind
  else if enc < 0x18 then (Reg.ofNum (enc - 0x10)).map (.idx nw)
  else if enc = 0x18 then some .pop
  else if enc = 0x19 then some .peek
  else if enc = 0x1A then some .push
  else if enc = 0x1B then some .sp
  else if enc = 0x1C then some .pc
  else if enc = 0x1D then some .o
  else if enc = 0x1E then some (.nextInd nw)
  else if enc = 0x1F then some (.nextLit nw)
  else if enc < 0x40 then some (.lit (enc - 0x20))
  else none

/-- The basic opcode map (R77). A word whose low 4 bits name no basic opcode is non-basic (R71). -/
def basicOf : Nat → Option (Operand → Operand → Instr)
  | 0x1 => some .set
  | 0x2 => some .add
  | 0x3 => some .sub
  | 0x4 => some .mul
  | 0x5 => some .div
  | 0x6 => some .mod
  | 0x7 => some .shl
  | 0x8 => some .shr
  | 0x9 => some .and
  | 0xA => some .or
  | 0xB => some .xor
  | 0xC => some .ife
  | 0xD => some .ifn
  | 0xE => some .ifg
  | 0xF => some .ifb
  | _ => none

/-- Why the decoder refuses a word. -/
inductive DecodeReject where
  /-- An operand encoding outside 0x00 to 0x3F (R119). No 16-bit word holds one (R84). -/
  | badOperandEncoding (enc : Nat)
  /-- A non-basic word whose opcode is neither 0 nor `JSR_OPCODE` (R82, R210). -/
  | reservedNonBasic (w : Word)
  deriving DecidableEq, Repr

/-- A basic instruction: operand A takes the first extension word if it is word-extending, and operand B the
next one (R72, R74, R102, R129). -/
def decodeBasic (mk : Operand → Operand → Instr) (w x y : Word) : Except DecodeReject Instr :=
  match decodeOperand (midField w) x, decodeOperand (topField w) (if ext (midField w) = 1 then y else x) with
  | some a, some b => .ok (mk a b)
  | none, _        => .error (.badOperandEncoding (midField w))
  | some _, none   => .error (.badOperandEncoding (topField w))

/-- A non-basic instruction (R73, R78): the opcode is examined before any operand (R226). Every other opcode is
reserved, 1 too when `JSR_OPCODE` is another number (DEDUCED, safe: assumption 15). -/
def decodeNonBasic (cfg : Config) (w x : Word) : Except DecodeReject Instr :=
  if midField w = 0 then .ok (.hlt (topField w))
  else if midField w = cfg.jsrOpcode then
    match decodeOperand (topField w) x with
    | some a => .ok (.jsr a)
    | none   => .error (.badOperandEncoding (topField w))
  else .error (.reservedNonBasic w)

/-- The instruction whose first word is `w`, `x` and `y` being the two words that follow it in the stream
(R71, R79, R102). -/
def decode (cfg : Config) (w x y : Word) : Except DecodeReject Instr :=
  match basicOf (opField w) with
  | some mk => decodeBasic mk w x y
  | none    => decodeNonBasic cfg w x

/-- The 6-bit encoding of an operand (R75). -/
def Operand.enc : Operand → Nat
  | .reg r     => r.num
  | .ind r     => 0x08 + r.num
  | .idx _ r   => 0x10 + r.num
  | .pop       => 0x18
  | .peek      => 0x19
  | .push      => 0x1A
  | .sp        => 0x1B
  | .pc        => 0x1C
  | .o         => 0x1D
  | .nextInd _ => 0x1E
  | .nextLit _ => 0x1F
  | .lit v     => 0x20 + v

/-- The extension words an operand puts in the stream (R70, R75). -/
def Operand.extWords : Operand → List Word
  | .idx nw _   => [nw]
  | .nextInd nw => [nw]
  | .nextLit nw => [nw]
  | .reg _ | .ind _ | .pop | .peek | .push | .sp | .pc | .o | .lit _ => []

/-- How many extension words an operand has: its `ext` (R80), and what it adds to the cost (R125). -/
def Operand.ext (op : Operand) : Nat := op.extWords.length

/-- `(B_enc << 10) | (A_enc << 4) | opcode` (R72); the three fields do not overlap, so the sum is the same word. -/
def basicWord (opcode aEnc bEnc : Nat) : Word := trunc16 (bEnc * 1024 + aEnc * 16 + opcode)

/-- `(A_enc << 10) | (nb_opcode << 4)` (R73). -/
def nonBasicWord (opcode aEnc : Nat) : Word := trunc16 (aEnc * 1024 + opcode * 16)

/-- The words of a basic instruction in memory order (R72, R74). -/
def encodeBasic (opcode : Nat) (a b : Operand) : List Word :=
  basicWord opcode a.enc b.enc :: (a.extWords ++ b.extWords)

/-- The words of an instruction, at increasing addresses (R70 to R78). -/
def encode (cfg : Config) : Instr → List Word
  | .set a b   => encodeBasic 0x1 a b
  | .add a b   => encodeBasic 0x2 a b
  | .sub a b   => encodeBasic 0x3 a b
  | .mul a b   => encodeBasic 0x4 a b
  | .div a b   => encodeBasic 0x5 a b
  | .mod a b   => encodeBasic 0x6 a b
  | .shl a b   => encodeBasic 0x7 a b
  | .shr a b   => encodeBasic 0x8 a b
  | .and a b   => encodeBasic 0x9 a b
  | .or a b    => encodeBasic 0xA a b
  | .xor a b   => encodeBasic 0xB a b
  | .ife a b   => encodeBasic 0xC a b
  | .ifn a b   => encodeBasic 0xD a b
  | .ifg a b   => encodeBasic 0xE a b
  | .ifb a b   => encodeBasic 0xF a b
  | .hlt field => [nonBasicWord 0 field]
  | .jsr a     => nonBasicWord cfg.jsrOpcode a.enc :: a.extWords

/-- Word `k` of an instruction whose bits are the low `nbits` bits of `w`, bit 0 being the least significant bit
of the first word; every bit above is 0. -/
def tableWord (nbits w k : Nat) : Word := trunc16 (w % 2 ^ nbits / wordCount ^ k)

/-- The instruction this decoder reads from an opcode-table word, with the default parameters. -/
def decodeTableWord (nbits w : Nat) : Option Instr :=
  match decode Config.default (tableWord nbits w 0) (tableWord nbits w 1) (tableWord nbits w 2) with
  | .ok i    => some i
  | .error _ => none

end Sys2Proof
end

