-- ==== Sys2Proof/Machine/State.lean ====
section
/-! DEFINITION. The state of the machine as plain data (spec 10_state.md R20 to R34), its reset value, and the
ways a step can stop. -/

namespace Sys2Proof.Machine

/-- The eight general registers (R20). -/
structure RegFile where
  a : Word
  b : Word
  c : Word
  x : Word
  y : Word
  z : Word
  i : Word
  j : Word
  deriving DecidableEq, Repr

/-- The registers an operand can name: a general register or one of SP, PC and O (R28, R30). -/
inductive RegName where
  | gen (r : Reg)
  | sp
  | pc
  | o
  deriving DecidableEq, Repr

/-- What operand resolution produces (R30). A slot is the name of a place, not a copy of its content. -/
inductive Slot where
  | reg (r : RegName)
  | mem (addr : Word)
  | imm (v : Word)
  deriving DecidableEq, Repr

/-- The phase of the interpreter (R28). -/
inductive Phase where
  | run
  | halted
  | faulted
  deriving DecidableEq, Repr

/-- Memory: the words that differ from 0, by strictly rising address (R31). An unlisted address reads as 0, the
reset content (R33). The form is `Memory.wf`. The smallest addressable unit is the 16-bit word (R52), so a cell
holds a word and not a byte (DESIGN CHOICE, safe: assumption 1). -/
abbrev Memory := List (Nat × Word)

/-- All state the spec gives the machine (R20 to R34), and `cfg`, the parameters the machine was built with, which
is the model's own field: no step writes it (DESIGN CHOICE, safe: assumption 2). `cyc` is CYC (R29), a natural
number with no bound. -/
structure State where
  regs  : RegFile
  pc    : Word
  sp    : Word
  o     : Word
  cyc   : Nat
  mem   : Memory
  phase : Phase
  cfg   : Config
  deriving DecidableEq, Repr

/-- The faults, which are all of R220. A fault carries no state: none is to be trusted afterwards (R222) (DEDUCED, safe:
assumption 6). -/
inductive Fault where
  /-- Raised by the decoder for an operand encoding outside 0x00 to 0x3F (R119). No 16-bit word holds such an
  encoding (R84), so no step raises it. Safe (assumption 7). -/
  | badOperandEncoding (enc : Nat)
  /-- Raised by `execReserved` for the reserved non-basic word `w` when `NONBASIC_RESERVED` is `FAULT` (R210).
  Safe: the machine stops where an implementation might go on (decision D3). -/
  | illegalInstruction (w : Word)
  deriving DecidableEq, Repr

/-- Where the spec gives no next state and no fault. -/
inductive Refusal where
  /-- Raised by an arm of `exec` whose instruction has no meaning yet. No arm of this model raises it. Safe. -/
  | notModelled (mnemonic : String)
  /-- Raised by `step` in phase Halted or Faulted: no step exists there (R100, R202, R224, decision D27).
  Safe (DESIGN CHOICE: assumption 4). -/
  | noStep (phase : Phase)
  /-- Raised by `mount` for an image of `n` words, more than memory holds (R251, decision D19). Safe
  (assumption 12). -/
  | imageTooLong (n : Nat)
  deriving DecidableEq, Repr

/-- What one step, or one operation of the host, answers. -/
abbrev Outcome := Host.Outcome State Fault Refusal

/-- The state after a mount of the empty image (R33, R250), with the default parameters (R6) (DEDUCED, safe:
assumption 5). -/
def State.reset : State where
  regs  := { a := 0, b := 0, c := 0, x := 0, y := 0, z := 0, i := 0, j := 0 }
  pc    := 0
  sp    := 0xFFFF
  o     := 0
  cyc   := 0
  mem   := []
  phase := .run
  cfg   := Config.default

end Sys2Proof.Machine
end

