-- ==== Sys2Proof/Machine/Ops.lean ====
section
/-! DEFINITION. The named operations over memory, registers, the program counter, the stack, the cycle counter and
the phase, which every meaning is made of. -/

namespace Sys2Proof.Machine

/-- The canonical form from address `lo` up: addresses strictly rising and below 65536, no listed word 0. -/
def Memory.wfFrom : Nat → Memory → Bool
  | _, []            => true
  | lo, (k, v) :: m => decide (lo ≤ k) && decide (k < wordCount) && decide (v ≠ 0) && Memory.wfFrom (k + 1) m

/-- The canonical form of memory: equal memories are equal lists. -/
def Memory.wf (m : Memory) : Bool := Memory.wfFrom 0 m

/-- The word at an address; an unlisted address reads as 0 (R33, R50). -/
def Memory.readAt : Memory → Nat → Word
  | [], _           => 0
  | (k, v) :: m, n => if k = n then v else Memory.readAt m n

/-- The memory without any entry for an address, which then reads as 0. -/
def Memory.eraseAt : Memory → Nat → Memory
  | [], _           => []
  | (k, u) :: m, n => if k = n then Memory.eraseAt m n else (k, u) :: Memory.eraseAt m n

/-- The memory with an entry put at its place by address. -/
def Memory.insertAt : Memory → Nat → Word → Memory
  | [], n, v           => [(n, v)]
  | (k, u) :: m, n, v => if n < k then (n, v) :: (k, u) :: m else (k, u) :: Memory.insertAt m n v

/-- The memory with the word at one address replaced (R50); a word that becomes 0 is no longer listed. -/
def Memory.writeAt (m : Memory) (n : Nat) (v : Word) : Memory :=
  if v = 0 then Memory.eraseAt m n else Memory.insertAt (Memory.eraseAt m n) n v

/-- The memory that holds `image` from address `n` up and 0 everywhere else (R250). -/
def Memory.ofImage : Nat → List Word → Memory
  | _, []      => []
  | n, v :: vs => if v = 0 then Memory.ofImage (n + 1) vs else (n, v) :: Memory.ofImage (n + 1) vs

/-- `MemRead(addr, 1)` (R50). -/
def State.memRead (s : State) (addr : Word) : Word := Memory.readAt s.mem addr.toNat

/-- `MemWrite(addr, 1, v)` (R50). -/
def State.memWrite (s : State) (addr v : Word) : State := { s with mem := Memory.writeAt s.mem addr.toNat v }

/-- `x[i]` (R9). -/
def RegFile.get (f : RegFile) : Reg → Word
  | .A => f.a
  | .B => f.b
  | .C => f.c
  | .X => f.x
  | .Y => f.y
  | .Z => f.z
  | .I => f.i
  | .J => f.j

/-- `x[i] <- v` (R9). -/
def RegFile.set (f : RegFile) (r : Reg) (v : Word) : RegFile :=
  match r with
  | .A => { f with a := v }
  | .B => { f with b := v }
  | .C => { f with c := v }
  | .X => { f with x := v }
  | .Y => { f with y := v }
  | .Z => { f with z := v }
  | .I => { f with i := v }
  | .J => { f with j := v }

/-- `x[i]` (R9). -/
def State.reg (s : State) (r : Reg) : Word := s.regs.get r

/-- `x[i] <- v` (R9). -/
def State.setReg (s : State) (r : Reg) (v : Word) : State := { s with regs := s.regs.set r v }

/-- `PC <- v` (R9). -/
def State.setPc (s : State) (v : Word) : State := { s with pc := v }

/-- `SP <- v` (R9). -/
def State.setSp (s : State) (v : Word) : State := { s with sp := v }

/-- `O <- v` (R9). -/
def State.setO (s : State) (v : Word) : State := { s with o := v }

/-- `CYC <- CYC + n` (R9). -/
def State.addCyc (s : State) (n : Nat) : State := { s with cyc := s.cyc + n }

/-- The phase becomes `p` (R28). -/
def State.setPhase (s : State) (p : Phase) : State := { s with phase := p }

/-- The content of a register that an operand can name (R120). -/
def State.readReg (s : State) : RegName → Word
  | .gen r => s.reg r
  | .sp    => s.sp
  | .pc    => s.pc
  | .o     => s.o

/-- Replace the content of a register that an operand can name (R121). -/
def State.writeReg (s : State) (r : RegName) (v : Word) : State :=
  match r with
  | .gen r => s.setReg r v
  | .sp    => s.setSp v
  | .pc    => s.setPc v
  | .o     => s.setO v

/-- `PC <- trunc16(PC + n)` (R23, R24). -/
def State.advancePc (s : State) (n : Nat) : State := s.setPc (trunc16 (s.pc.toNat + n))

/-- The step charges its cost once, at its end: `CYC <- CYC + FETCH_COST + n` (R125, R270). -/
def State.charge (s : State) (n : Nat) : State := s.addCyc (s.cfg.fetchCost + n)

/-- Push a word: `SP <- trunc16(SP - 1)`, then store at the new SP (R205). -/
def State.pushWord (s : State) (v : Word) : State :=
  let s' := s.setSp (truncInt16 ((s.sp.toNat : Int) - 1))
  s'.memWrite s'.sp v

/-- Step over the instruction at PC without executing it (R186). -/
def State.skip (s : State) : State := s.advancePc (len (s.memRead s.pc))

/-- A fault: the one exception of this machine. It ends the step in phase Faulted, saves nothing, changes no mode
and goes to no handler, and no state is to be trusted after it (R222, R227), so the outcome carries none. There is
no return from it (R227). -/
def raise (f : Fault) : Outcome := .fault f

/-- The phase that follows an outcome of a step from `s`: Faulted after a fault (R222). A refusal is no step. -/
def phaseAfter (s : State) : Outcome → Phase
  | .next t    => t.phase
  | .fault _   => .faulted
  | .refused _ => s.phase

/-- Fetch and decode the instruction at PC. PC advances past its first word only (R101, R102); resolving a
word-extending operand moves PC past the operand's own word (R106, R116, R117). -/
def fetch (s : State) : Except DecodeReject Instr × State :=
  let pc1 := trunc16 (s.pc.toNat + 1)
  let pc2 := trunc16 (s.pc.toNat + 2)
  (decode s.cfg (s.memRead s.pc) (s.memRead pc1) (s.memRead pc2), s.advancePc 1)

end Sys2Proof.Machine
end

