-- ==== Sys2Proof/Machine/Operands.lean ====
section
/-! DEFINITION. Resolving an operand to a slot, and reading and writing a slot (spec 40_step_and_operands.md R103 to
R122), for every operand form. -/

namespace Sys2Proof.Machine

/-- `Resolve` (R104 to R118): the slot, and the state after the side effects on PC and SP. The extension word was
read by the fetch and stands in the operand; nothing writes memory between the fetch and the resolution
(DEDUCED, safe: assumption 3). -/
def resolve (op : Operand) (s : State) : Slot × State :=
  match op with
  | .reg r      => (.reg (.gen r), s)
  | .ind r      => (.mem (s.reg r), s)
  | .idx nw r   => (.mem (trunc16 (nw.toNat + (s.reg r).toNat)), s.advancePc 1)
  | .pop        => (.mem s.sp, s.setSp (trunc16 (s.sp.toNat + 1)))
  | .peek       => (.mem s.sp, s)
  | .push       =>
    let sp' := truncInt16 ((s.sp.toNat : Int) - 1)
    (.mem sp', s.setSp sp')
  | .sp         => (.reg .sp, s)
  | .pc         => (.reg .pc, s)
  | .o          => (.reg .o, s)
  | .nextInd nw => (.mem nw, s.advancePc 1)
  | .nextLit nw => (.imm nw, s.advancePc 1)
  | .lit v      => (.imm (trunc16 v), s)

/-- `Read(slot)` (R120). -/
def readSlot (sl : Slot) (s : State) : Word :=
  match sl with
  | .reg r    => s.readReg r
  | .mem addr => s.memRead addr
  | .imm v    => v

/-- `Write(slot, v)` (R121): a write to an immediate is dropped. -/
def writeSlot (sl : Slot) (v : Word) (s : State) : State :=
  match sl with
  | .reg r    => s.writeReg r v
  | .mem addr => s.memWrite addr v
  | .imm _    => s

/-- The slot of operand A (R102: A is resolved first). -/
def slotA (a : Operand) (s : State) : Slot := (resolve a s).1

/-- The slot of operand B, resolved after operand A (R102). -/
def slotB (a b : Operand) (s : State) : Slot := (resolve b (resolve a s).2).1

/-- The state after both operands of a basic instruction are resolved (R102, R103). -/
def resolved (a b : Operand) (s : State) : State := (resolve b (resolve a s).2).2

/-- The word `a` of R10: operand A's slot, read after both resolutions (R122). -/
def valueA (a b : Operand) (s : State) : Word := readSlot (slotA a s) (resolved a b s)

/-- The word `b` of R10: operand B's slot, read after both resolutions (R122). -/
def valueB (a b : Operand) (s : State) : Word := readSlot (slotB a b s) (resolved a b s)

end Sys2Proof.Machine
end

