-- ==== Sys2Proof/Machine/Flags.lean ====
section
/-! DEFINITION. What the arithmetic and shift instructions compute: the result word and the value of the overflow
register O, the machine's only flag (spec 10_state.md R27). Every computation is exact on natural numbers or integers
and is truncated at the end (R9, R153). -/

namespace Sys2Proof.Machine

/-- R142. -/
def addResult (a b : Word) : Word := trunc16 (a.toNat + b.toNat)

/-- R142: the carry. -/
def addO (a b : Word) : Word := if a.toNat + b.toNat ≥ wordCount then 1 else 0

/-- R144. -/
def subResult (a b : Word) : Word := truncInt16 ((a.toNat : Int) - (b.toNat : Int))

/-- R144: the borrow. -/
def subO (a b : Word) : Word := if a.toNat < b.toNat then 0xFFFF else 0

/-- R146: the low half of the product. -/
def mulResult (a b : Word) : Word := trunc16 (a.toNat * b.toNat)

/-- R146: the high half of the product. -/
def mulO (a b : Word) : Word := trunc16 ((a.toNat * b.toNat) >>> 16)

/-- R148: the quotient; 0 when the divisor is 0. -/
def divResult (a b : Word) : Word := if b.toNat = 0 then 0 else trunc16 (a.toNat / b.toNat)

/-- R148: `DivO`, by the mode of DIV; 0 when the divisor is 0. -/
def divO (mode : DivOMode) (a b : Word) : Word :=
  if b.toNat = 0 then 0
  else match mode with
    | .quotient => trunc16 ((a.toNat / b.toNat) <<< 16 / b.toNat)
    | .dividend => trunc16 (a.toNat <<< 16 / b.toNat)

/-- R150: the remainder; 0 when the divisor is 0. -/
def modResult (a b : Word) : Word := if b.toNat = 0 then 0 else trunc16 (a.toNat % b.toNat)

/-- `sc(b)`: the effective shift count (R160). -/
def shiftCount (mode : ShiftCountMode) (b : Word) : Nat :=
  match mode with
  | .unbounded => b.toNat
  | .mask5     => b.toNat % 32

/-- R161. -/
def shlResult (mode : ShiftCountMode) (a b : Word) : Word := trunc16 (a.toNat <<< shiftCount mode b)

/-- R161: the bits shifted out at the top. -/
def shlO (mode : ShiftCountMode) (a b : Word) : Word := trunc16 ((a.toNat <<< shiftCount mode b) >>> 16)

/-- R163. -/
def shrResult (mode : ShiftCountMode) (a b : Word) : Word :=
  trunc16 (((a.toNat <<< 16) >>> shiftCount mode b) >>> 16)

/-- R163: the bits shifted out at the bottom. -/
def shrO (mode : ShiftCountMode) (a b : Word) : Word := trunc16 ((a.toNat <<< 16) >>> shiftCount mode b)

end Sys2Proof.Machine
end

