-- ==== Sys2Proof/Machine/Basic.lean ====
section
/-! DEFINITION. The three shapes of a basic instruction (spec 40_step_and_operands.md R100, R124; 43_conditional.md
R180). -/

namespace Sys2Proof.Machine

/-- The cost of a basic instruction before any skip, without `FETCH_COST` (R125, R270). -/
def basicCost (base : Nat) (a b : Operand) : Nat := base + a.ext + b.ext

/-- A basic instruction that writes its result to operand A's slot and leaves O alone: SET, MOD, AND, OR, XOR. -/
def runPlain (base : Nat) (f : Word → Word → Word) (a b : Operand) (s : State) : Outcome :=
  .next ((writeSlot (slotA a s) (f (valueA a b s) (valueB a b s)) (resolved a b s)).charge (basicCost base a b))

/-- A basic instruction that writes its result first and O second (R124): ADD, SUB, MUL, DIV, SHL, SHR. -/
def runWithO (base : Nat) (f g : Word → Word → Word) (a b : Operand) (s : State) : Outcome :=
  let va := valueA a b s
  let vb := valueB a b s
  .next (((writeSlot (slotA a s) (f va vb) (resolved a b s)).setO (g va vb)).charge (basicCost base a b))

/-- A conditional (R180): it writes nothing, and when its test is false it skips the following instruction and
costs 1 more (R186). -/
def runCond (test : Word → Word → Bool) (a b : Operand) (s : State) : Outcome :=
  let s' := resolved a b s
  if test (valueA a b s) (valueB a b s) then .next (s'.charge (basicCost 2 a b))
  else .next (s'.skip.charge (basicCost 2 a b + 1))

end Sys2Proof.Machine
end

