-- ==== Sys2Proof/Machine/Conditional.lean ====
section
/-! DEFINITION. IFE, IFN, IFG, IFB (spec 43_conditional.md). All comparisons are unsigned (R180). -/

namespace Sys2Proof.Machine

/-- IFE (R181). -/
def execIfe (a b : Operand) (s : State) : Outcome := runCond (fun va vb => decide (va = vb)) a b s

/-- IFN (R182). -/
def execIfn (a b : Operand) (s : State) : Outcome := runCond (fun va vb => decide (va ≠ vb)) a b s

/-- IFG (R183): unsigned and strict. -/
def execIfg (a b : Operand) (s : State) : Outcome := runCond (fun va vb => decide (va.toNat > vb.toNat)) a b s

/-- IFB (R184). -/
def execIfb (a b : Operand) (s : State) : Outcome := runCond (fun va vb => decide (va &&& vb ≠ 0)) a b s

end Sys2Proof.Machine
end

