-- ==== Sys2Proof/Machine/MoveArith.lean ====
section
/-! DEFINITION. SET, ADD, SUB, MUL, DIV, MOD (spec 41_move_arith.md). -/

namespace Sys2Proof.Machine

/-- SET (R140). -/
def execSet (a b : Operand) (s : State) : Outcome := runPlain 1 (fun _ vb => vb) a b s

/-- ADD (R142). -/
def execAdd (a b : Operand) (s : State) : Outcome := runWithO 2 addResult addO a b s

/-- SUB (R144). -/
def execSub (a b : Operand) (s : State) : Outcome := runWithO 2 subResult subO a b s

/-- MUL (R146). -/
def execMul (a b : Operand) (s : State) : Outcome := runWithO 2 mulResult mulO a b s

/-- DIV (R148). -/
def execDiv (a b : Operand) (s : State) : Outcome := runWithO 3 divResult (divO s.cfg.divOMode) a b s

/-- MOD (R150): O is not written. -/
def execMod (a b : Operand) (s : State) : Outcome := runPlain 3 modResult a b s

end Sys2Proof.Machine
end

