-- ==== Sys2Proof/Machine/NonBasic.lean ====
section
/-! DEFINITION. HLT, JSR and the reserved non-basic opcodes (spec 44_nonbasic.md). -/

namespace Sys2Proof.Machine

/-- HLT (R201): the phase becomes Halted. Its operand field is not resolved and nothing is charged. -/
def execHlt (s : State) : Outcome := .next (s.setPhase .halted)

/-- JSR (R205): resolve, push the address of the next instruction, then read operand A into PC. -/
def execJsr (a : Operand) (s : State) : Outcome :=
  let s1 := (resolve a s).2
  let s2 := s1.pushWord s1.pc
  .next ((s2.setPc (readSlot (slotA a s) s2)).charge (2 + a.ext))

/-- A reserved non-basic word, after its fetch (R210). With `NONBASIC_RESERVED = FAULT` it is an illegal
instruction. With `NOP` it resolves its operand, whose extension word is at PC, and does nothing else
(DEDUCED, safe: assumption 15). -/
def execReserved (w : Word) (s : State) : Outcome :=
  match s.cfg.nonbasicReserved with
  | .fault => raise (.illegalInstruction w)
  | .nop   =>
    match decodeOperand (topField w) (s.memRead s.pc) with
    | some a => .next ((resolve a s).2.charge a.ext)
    | none   => raise (.badOperandEncoding (topField w))

/-- What a step does when the decoder refuses the word it fetched (R119, R210). -/
def execReject (r : DecodeReject) (s : State) : Outcome :=
  match r with
  | .badOperandEncoding enc => raise (.badOperandEncoding enc)
  | .reservedNonBasic w     => execReserved w s

end Sys2Proof.Machine
end

