-- ==== Sys2Proof/Machine/ShiftLogic.lean ====
section
/-! DEFINITION. SHL, SHR, AND, OR, XOR (spec 42_shift_logic.md). -/

namespace Sys2Proof.Machine

/-- SHL (R161). -/
def execShl (a b : Operand) (s : State) : Outcome :=
  runWithO 2 (shlResult s.cfg.shiftCountMode) (shlO s.cfg.shiftCountMode) a b s

/-- SHR (R163). -/
def execShr (a b : Operand) (s : State) : Outcome :=
  runWithO 2 (shrResult s.cfg.shiftCountMode) (shrO s.cfg.shiftCountMode) a b s

/-- AND (R165). -/
def execAnd (a b : Operand) (s : State) : Outcome := runPlain 1 (fun va vb => va &&& vb) a b s

/-- OR (R167). -/
def execOr (a b : Operand) (s : State) : Outcome := runPlain 1 (fun va vb => va ||| vb) a b s

/-- XOR (R169). -/
def execXor (a b : Operand) (s : State) : Outcome := runPlain 1 (fun va vb => va ^^^ vb) a b s

end Sys2Proof.Machine
end

