-- ==== Sys2Proof/Machine/Step.lean ====
section
/-! DEFINITION. One step of the machine: the whole of one iteration of the run loop (spec 00_scope.md R11,
40_step_and_operands.md R100). -/

namespace Sys2Proof.Machine

/-- One step (R100), the whole of it at once (R11; assumption 16). In phase Halted or Faulted no step exists (R202,
R224; assumption 4). -/
def step (s : State) : Host.Outcome State Fault Refusal :=
  match s.phase with
  | .run =>
    match fetch s with
    | (.ok i, s')    => exec i s'
    | (.error r, s') => execReject r s'
  | .halted  => .refused (.noStep .halted)
  | .faulted => .refused (.noStep .faulted)

/-- The state with an opcode-table word placed at PC, every word after it 0 up to the longest instruction, and the
machine in phase Run, so that the next step runs it (assumption 14). It stands for a mount of that program (R250). -/
def State.withFetchWord (s : State) (nbits w : Nat) : State :=
  let put (k : Nat) (t : State) : State := t.memWrite (trunc16 (s.pc.toNat + k)) (tableWord nbits w k)
  (put 0 (put 1 (put 2 s))).setPhase .run

end Sys2Proof.Machine
end

