-- ==== Sys2Proof/Machine/Pseudocode.lean ====
section
/-! DEFINITION. The step as spec 40_step_and_operands.md R126 writes it, in one piece: on raw words, with no
instruction syntax, each extension word read from memory when its operand is resolved. `step` does not use it; it is
what `step` is claimed to equal. -/

namespace Sys2Proof.Machine

/-- `Resolve(enc)` (R104 to R118), reading the extension word at PC itself. R119: no slot outside 0x00 to 0x3F. -/
def resolveEnc (enc : Nat) (s : State) : Option (Slot × State) :=
  let nw := s.memRead s.pc
  let sNext := s.setPc (trunc16 (s.pc.toNat + 1))
  if enc < 0x18 then
    match Reg.ofNum (enc % 8) with
    | none   => none
    | some r =>
      if enc < 0x08 then some (.reg (.gen r), s)
      else if enc < 0x10 then some (.mem (s.reg r), s)
      else some (.mem (trunc16 (nw.toNat + (s.reg r).toNat)), sNext)
  else match enc with
    | 0x18 => some (.mem s.sp, s.setSp (trunc16 (s.sp.toNat + 1)))
    | 0x19 => some (.mem s.sp, s)
    | 0x1A =>
      let s' := s.setSp (truncInt16 ((s.sp.toNat : Int) - 1))
      some (.mem s'.sp, s')
    | 0x1B => some (.reg .sp, s)
    | 0x1C => some (.reg .pc, s)
    | 0x1D => some (.reg .o, s)
    | 0x1E => some (.mem nw, sNext)
    | 0x1F => some (.imm nw, sNext)
    | _    => if enc < 0x40 then some (.imm (trunc16 (enc - 0x20)), s) else none

/-- The base cost of a basic opcode (R270). -/
def baseCost (op : Nat) : Nat :=
  if op = 1 ∨ op = 9 ∨ op = 10 ∨ op = 11 then 1 else if op = 5 ∨ op = 6 then 3 else 2

/-- `case op of` for the eleven opcodes that write a result (R126). -/
def operate (op : Nat) (sl : Slot) (a b : Word) (s : State) : State :=
  let both (v ov : Word) : State := (writeSlot sl v s).setO ov
  match op with
  | 1  => writeSlot sl b s
  | 2  => both (addResult a b) (addO a b)
  | 3  => both (subResult a b) (subO a b)
  | 4  => both (mulResult a b) (mulO a b)
  | 5  => both (divResult a b) (divO s.cfg.divOMode a b)
  | 6  => writeSlot sl (modResult a b) s
  | 7  => both (shlResult s.cfg.shiftCountMode a b) (shlO s.cfg.shiftCountMode a b)
  | 8  => both (shrResult s.cfg.shiftCountMode a b) (shrO s.cfg.shiftCountMode a b)
  | 9  => writeSlot sl (a &&& b) s
  | 10 => writeSlot sl (a ||| b) s
  | 11 => writeSlot sl (a ^^^ b) s
  | _  => s

/-- `cond` of the four conditional opcodes (R126); true for the others, which never skip. -/
def condHolds (op : Nat) (a b : Word) : Bool :=
  match op with
  | 12 => decide (a = b)
  | 13 => decide (a ≠ b)
  | 14 => decide (a.toNat > b.toNat)
  | 15 => decide (a &&& b ≠ 0)
  | _  => true

/-- The basic half of `Step()` (R126), `w` being the word fetched and `s` the state after the fetch. -/
def pseudoBasic (w : Word) (s : State) : Outcome :=
  let op := opField w
  match resolveEnc (midField w) s with
  | none            => raise (.badOperandEncoding (midField w))
  | some (slA, s1) =>
    match resolveEnc (topField w) s1 with
    | none            => raise (.badOperandEncoding (topField w))
    | some (slB, s2) =>
      let a := readSlot slA s2
      let b := readSlot slB s2
      let cost := s.cfg.fetchCost + baseCost op + (ext (midField w) + ext (topField w))
      let s3 := operate op slA a b s2
      if condHolds op a b then .next (s3.addCyc cost)
      else .next ((s3.setPc (trunc16 (s3.pc.toNat + len (s3.memRead s3.pc)))).addCyc (cost + 1))

/-- The non-basic half of `Step()` (R126), with R210 for the reserved opcodes. -/
def pseudoNonBasic (w : Word) (s : State) : Outcome :=
  if midField w = 0 then .next (s.setPhase .halted)
  else if midField w = s.cfg.jsrOpcode then
    match resolveEnc (topField w) s with
    | none            => raise (.badOperandEncoding (topField w))
    | some (slA, s1) =>
      let sp' := truncInt16 ((s1.sp.toNat : Int) - 1)
      let s2 := (s1.setSp sp').memWrite sp' s1.pc
      .next ((s2.setPc (readSlot slA s2)).addCyc (s.cfg.fetchCost + 2 + ext (topField w)))
  else match s.cfg.nonbasicReserved with
    | .fault => raise (.illegalInstruction w)
    | .nop   =>
      match resolveEnc (topField w) s with
      | none          => raise (.badOperandEncoding (topField w))
      | some (_, s1) => .next (s1.addCyc (s.cfg.fetchCost + ext (topField w)))

/-- `Step()` of R126, which is taken only in phase Run. -/
def pseudoStep (s : State) : Outcome :=
  let w := s.memRead s.pc
  let s' := s.setPc (trunc16 (s.pc.toNat + 1))
  if opField w ≠ 0 then pseudoBasic w s' else pseudoNonBasic w s'

end Sys2Proof.Machine
end

