-- ==== Sys2Proof/Machine/Run.lean ====
section
/-! DEFINITION. The three operations of the host: mount, run and read the final state (spec
70_reset_and_hazards.md R250 to R254). -/

namespace Sys2Proof.Machine

/-- `Mount(image)` on a machine built with `cfg` (R250): the image at address 0 upward and 0 elsewhere, every
register at its reset value, phase Run. An image longer than memory is refused (R251). -/
def mount (cfg : Config) (image : List Word) : Outcome :=
  if image.length ≤ wordCount then .next { State.reset with mem := Memory.ofImage 0 image, cfg := cfg }
  else .refused (.imageTooLong image.length)

/-- How a run stands after a bounded number of steps (R252). -/
inductive RunResult where
  /-- The phase is Halted and `s` is the final state (R254). -/
  | success (s : State)
  /-- A step faulted: the run has no final state (R222). -/
  | runtimeError (f : Fault)
  /-- The bound was reached in phase Run, at state `s` (R236). -/
  | unfinished (s : State)
  /-- The machine was not in phase Run when the run began (R224, R252). -/
  | notRunnable (r : Refusal)
  deriving DecidableEq, Repr

/-- `run()` bounded to `n` steps (R252): it steps while the phase is Run (DESIGN CHOICE, safe: assumption 11). -/
def runFor : Nat → State → RunResult
  | 0, s     => .unfinished s
  | n + 1, s =>
    match step s with
    | .next t    =>
      match t.phase with
      | .run     => runFor n t
      | .halted  => .success t
      | .faulted => .notRunnable (.noStep .faulted)
    | .fault f   => .runtimeError f
    | .refused r => .notRunnable r

/-- What the host may read (R253): the register file, PC, SP, O, CYC and memory. -/
structure FinalState where
  regs : RegFile
  pc   : Word
  sp   : Word
  o    : Word
  cyc  : Nat
  mem  : Memory
  deriving DecidableEq, Repr

/-- Read the final state (R253): only a run that ended in phase Halted has one (R222, R254). -/
def readFinal : RunResult → Option FinalState
  | .success s      => some ⟨s.regs, s.pc, s.sp, s.o, s.cyc, s.mem⟩
  | .runtimeError _ => none
  | .unfinished _   => none
  | .notRunnable _  => none

end Sys2Proof.Machine
end

