-- ==== Sys2Proof/Safety.lean ====
section
/-! DEFINITION. The terms claims are stated in: what a run guarantees, what an instruction leaves as it was, and the
spec's own pseudocode of a step (R126) to hold the machine against. -/

namespace Sys2Proof.Machine

/-- What holds in every state a run from a mount can reach: memory is in its canonical form and the parameters are
values R6 allows. -/
def State.Inv (s : State) : Prop := Memory.wf s.mem = true ∧ s.cfg.wf = true

/-- A run that ended in phase Halted (R254). -/
def EndsWith (s t : State) : Prop := ∃ n, runFor n s = .success t

/-- A run that no bound sees fault (R222). -/
def NeverFaults (s : State) : Prop := ∀ n f, runFor n s ≠ .runtimeError f

/-- The net change of SP by resolving an operand (R110, R112), modulo 65536; it happens once (R103). -/
def spMove : Operand → Word
  | .pop  => 1
  | .push => -1
  | .reg _ | .ind _ | .idx _ _ | .peek | .sp | .pc | .o | .nextInd _ | .nextLit _ | .lit _ => 0

/-- The value an operand reads as, told without resolving it (R120, R122): `sp0` is SP as its resolution finds it,
`pcEnd` and `spEnd` are PC and SP after all resolutions. -/
def operandReads (op : Operand) (sp0 pcEnd spEnd : Word) (s : State) : Word :=
  match op with
  | .reg r      => s.reg r
  | .ind r      => s.memRead (s.reg r)
  | .idx nw r   => s.memRead (nw + s.reg r)
  | .pop        => s.memRead sp0
  | .peek       => s.memRead sp0
  | .push       => s.memRead (sp0 - 1)
  | .sp         => spEnd
  | .pc         => pcEnd
  | .o          => s.o
  | .nextInd nw => s.memRead nw
  | .nextLit nw => nw
  | .lit v      => BitVec.ofNat 16 v

/-- The place a slot names holds `v` in `t`. An immediate names no place: a write to it is dropped (R121). -/
def SlotHolds (sl : Slot) (v : Word) (t : State) : Prop :=
  match sl with
  | .reg (.gen r) => t.reg r = v
  | .reg .sp      => t.sp = v
  | .reg .pc      => t.pc = v
  | .reg .o       => t.o = v
  | .mem addr     => t.memRead addr = v
  | .imm _        => True

/-- What a basic instruction leaves as it was from `s` (after the fetch) to `t`, its destination being the slot
`dst`: every general register and memory word but the destination; PC and SP but for the moves of operand
resolution (R103); the phase; and the parameters. -/
def BasicFrame (dst : Slot) (a b : Operand) (s t : State) : Prop :=
  (∀ r : Reg, dst ≠ .reg (.gen r) → t.reg r = s.reg r) ∧
  (dst ≠ .reg .pc → t.pc = s.pc + BitVec.ofNat 16 (a.ext + b.ext)) ∧
  (dst ≠ .reg .sp → t.sp = s.sp + spMove a + spMove b) ∧
  (∀ addr : Word, dst ≠ .mem addr → t.memRead addr = s.memRead addr) ∧
  t.phase = s.phase ∧ t.cfg = s.cfg

/-- A basic instruction that writes `v` to operand A's slot and does not write O (R121, R140): it costs `cost`. -/
def WritesPlain (v : Word) (cost : Nat) (a b : Operand) (s t : State) : Prop :=
  SlotHolds (slotA a s) v t ∧
  (slotA a s ≠ .reg .o → t.o = s.o) ∧
  t.cyc = s.cyc + s.cfg.fetchCost + cost + a.ext + b.ext ∧
  BasicFrame (slotA a s) a b s t

/-- A basic instruction that writes `v` to operand A's slot and then `ov` to O (R124): it costs `cost`. -/
def WritesWithO (v ov : Word) (cost : Nat) (a b : Operand) (s t : State) : Prop :=
  (slotA a s ≠ .reg .o → SlotHolds (slotA a s) v t) ∧
  t.o = ov ∧
  t.cyc = s.cyc + s.cfg.fetchCost + cost + a.ext + b.ext ∧
  BasicFrame (slotA a s) a b s t

/-- What a conditional leaves as it was (R180): everything but PC, SP (through POP and PUSH) and CYC. -/
def CondFrame (a b : Operand) (s t : State) : Prop :=
  t.regs = s.regs ∧ t.o = s.o ∧ t.mem = s.mem ∧ t.phase = s.phase ∧ t.cfg = s.cfg ∧
  t.sp = s.sp + spMove a + spMove b

/-- The address after a conditional's own words, `s` being the state after the fetch (R186). -/
def followingAddr (a b : Operand) (s : State) : Word := s.pc + BitVec.ofNat 16 (a.ext + b.ext)

/-- A conditional whose test is true (R180), or false with the following instruction skipped (R186, R189). -/
def CondOutcome (cond : Prop) (a b : Operand) (s t : State) : Prop :=
  (cond → t.pc = followingAddr a b s ∧ t.cyc = s.cyc + s.cfg.fetchCost + 2 + a.ext + b.ext) ∧
  (¬ cond →
    t.pc = followingAddr a b s + BitVec.ofNat 16 (len (s.memRead (followingAddr a b s))) ∧
    t.cyc = s.cyc + s.cfg.fetchCost + 3 + a.ext + b.ext) ∧
  CondFrame a b s t

/-- The outcome with `n` more cycles on CYC. -/
def moreCycles (n : Nat) : Outcome → Outcome
  | .next t    => .next (t.addCyc n)
  | .fault f   => .fault f
  | .refused r => .refused r

/-- The operand encoding `enc`, with `nw` the word at PC, takes `k` extension words and, resolved in `s`, gives the
slot `sl` and the state `t` (R104 to R118). -/
def ResolvesTo (enc : Nat) (nw : Word) (k : Nat) (sl : Slot) (s t : State) : Prop :=
  ∃ op, decodeOperand enc nw = some op ∧ op.ext = k ∧ resolve op s = (sl, t)

/-- The states a run from `s` passes through (R252): a step is taken only in phase Run (R100). -/
inductive Reaches (s : State) : State → Prop where
  | start : Reaches s s
  | after {t u : State} (h : Reaches s t) (hs : step t = .next u) : Reaches s u

/-- The state with the words of a list stored from an address upward. -/
def State.place (s : State) (addr : Word) : List Word → State
  | []      => s
  | v :: vs => (s.memWrite addr v).place (addr + 1) vs

end Sys2Proof.Machine
end

