-- ==== Sys2Proof/Certificates/Slice0/Obligations.lean ====
section
/-! DEFINITION. The statements for the provers. In every statement about one instruction `s` is the state after the
fetch of its first word, as `exec` takes it, and `a` and `b` name operands A and B. `D<n>` names a decision of spec
92_eei_decisions.md, which is the spec's own choice where its source is open. -/

open Sys2Proof Sys2Proof.Machine

/-! ## Reset and the invariant -/

/-- R250, R22: what mount leaves in every piece of state, for every image that fits in memory. -/
def Obligations.MountSetsEveryPieceOfState : Prop :=
  ∀ (cfg : Config) (image : List Word), image.length ≤ 65536 →
    ∃ t, mount cfg image = .next t ∧
      (∀ addr : Word, t.memRead addr = image.getD addr.toNat 0) ∧
      (∀ r : Reg, t.reg r = 0) ∧
      t.pc = 0 ∧ t.sp = 0xFFFF ∧ t.o = 0 ∧ t.cyc = 0 ∧ t.phase = .run ∧ t.cfg = cfg

/-- The model's reset state is the mount of the empty image with the default parameters (assumption 5), and the
first step from it halts (R251). -/
def Obligations.ResetIsTheMountOfTheEmptyImage : Prop :=
  mount Config.default [] = .next State.reset ∧
  ∃ t, step State.reset = .next t ∧ t.phase = .halted

/-- R251 (D19): mount refuses an image longer than memory and no other. -/
def Obligations.MountRefusesExactlyTheImagesLongerThanMemory : Prop :=
  ∀ (cfg : Config) (image : List Word),
    (65536 < image.length → mount cfg image = .refused (.imageTooLong image.length)) ∧
    (image.length ≤ 65536 → ∃ t, mount cfg image = .next t)

/-- The reset state meets the invariant: canonical memory and parameter values R6 allows. -/
def Obligations.ResetMeetsTheInvariant : Prop := State.reset.Inv

/-- Every mounted machine whose parameters R6 allows meets the invariant. -/
def Obligations.MountMeetsTheInvariant : Prop :=
  ∀ (cfg : Config) (image : List Word) (t : State), cfg.wf = true → mount cfg image = .next t → t.Inv

/-- Every step, from every state that meets the invariant, gives a state that meets it, with the same
parameters. The parameters are the model's own field (assumption 2). -/
def Obligations.EveryStepKeepsTheInvariant : Prop :=
  ∀ s t : State, s.Inv → step s = .next t → t.Inv ∧ t.cfg = s.cfg

/-! ## Memory and slots -/

/-- R50: a write replaces the word at one address and has no other effect; a read returns the word stored. -/
def Obligations.MemWriteReplacesOneWordOnly : Prop :=
  ∀ (s : State) (addr v : Word),
    (∀ k : Word, (s.memWrite addr v).memRead k = if k = addr then v else s.memRead k) ∧
    (∀ r : RegName, (s.memWrite addr v).readReg r = s.readReg r) ∧
    (s.memWrite addr v).cyc = s.cyc ∧ (s.memWrite addr v).phase = s.phase ∧ (s.memWrite addr v).cfg = s.cfg

/-- R120, R121: what is read from a slot after a write to it or to another slot; an immediate keeps its value. -/
def Obligations.SlotReadsAfterSlotWrites : Prop :=
  ∀ (sl sl' : Slot) (v : Word) (s : State),
    readSlot sl' (writeSlot sl v s) = if sl' = sl ∧ (∀ u, sl ≠ .imm u) then v else readSlot sl' s

/-! ## Encoding -/

/-- R72, R73: the two formats hold exactly their fields, bit by bit, and every word is of one of the two. -/
def Obligations.FormatsHoldTheirFields : Prop :=
  (∀ op aEnc bEnc : Nat, 1 ≤ op → op ≤ 15 → aEnc ≤ 63 → bEnc ≤ 63 →
    basicWord op aEnc bEnc = BitVec.ofNat 16 ((bEnc <<< 10) ||| (aEnc <<< 4) ||| op) ∧
    opField (basicWord op aEnc bEnc) = op ∧ midField (basicWord op aEnc bEnc) = aEnc ∧
    topField (basicWord op aEnc bEnc) = bEnc) ∧
  (∀ nb aEnc : Nat, nb ≤ 63 → aEnc ≤ 63 →
    nonBasicWord nb aEnc = BitVec.ofNat 16 ((aEnc <<< 10) ||| (nb <<< 4)) ∧
    opField (nonBasicWord nb aEnc) = 0 ∧ midField (nonBasicWord nb aEnc) = nb ∧
    topField (nonBasicWord nb aEnc) = aEnc) ∧
  (∀ w : Word,
    opField w = (w.extractLsb' 0 4).toNat ∧ midField w = (w.extractLsb' 4 6).toNat ∧
    topField w = (w.extractLsb' 10 6).toNat ∧
    w = if opField w = 0 then nonBasicWord (midField w) (topField w)
        else basicWord (opField w) (midField w) (topField w))

/-- R70 to R79: the words of every well-formed instruction decode to it, whatever follows them in the stream. -/
def Obligations.DecodeOfEncodeIsTheInstruction : Prop :=
  ∀ (cfg : Config) (i : Instr) (rest : List Word), cfg.wf = true → i.wf = true →
    let stream := encode cfg i ++ rest
    decode cfg (stream.getD 0 0) (stream.getD 1 0) (stream.getD 2 0) = .ok i

/-- R70 to R79: what the decoder accepts is well formed and encodes to the very words it was read from, whatever
the parameters. -/
def Obligations.EncodeOfDecodeIsTheWords : Prop :=
  ∀ (cfg : Config) (w x y : Word) (i : Instr), decode cfg w x y = .ok i →
    i.wf = true ∧ encode cfg i = [w, x, y].take (encode cfg i).length ∧ 1 ≤ (encode cfg i).length

/-- Words the spec writes out (R188, R206 and 95_test_vectors.md) decode to the instructions beside them there. -/
def Obligations.WordsOfTheSpecDecode : Prop :=
  decode Config.default 0x0401 0 0 = .ok (.set (.reg .A) (.reg .B)) ∧
  decode Config.default 0x7DE1 0x1000 0x0020 = .ok (.set (.nextInd 0x1000) (.nextLit 0x0020)) ∧
  decode Config.default 0x5D61 0x0010 0x0020 = .ok (.set (.idx 0x0010 .I) (.idx 0x0020 .J)) ∧
  decode Config.default 0x61A1 0 0 = .ok (.set .push .pop) ∧
  decode Config.default 0x7402 0 0 = .ok (.add (.reg .A) .o) ∧
  decode Config.default 0x9018 0 0 = .ok (.shr (.reg .B) (.lit 4)) ∧
  decode Config.default 0x7C0C 0x1234 0 = .ok (.ife (.reg .A) (.nextLit 0x1234)) ∧
  decode Config.default 0x7C00 0xBEEF 0 = .ok (.hlt 0x1F) ∧
  decode Config.default 0x7C10 0x0003 0 = .ok (.jsr (.nextLit 0x0003)) ∧
  decode Config.default 0x0020 0 0 = .error (.reservedNonBasic 0x0020)

/-- R84: no word makes the decoder meet an operand encoding outside 0x00 to 0x3F, and no step raises that fault. -/
def Obligations.NoWordHoldsABadOperandEncoding : Prop :=
  (∀ (cfg : Config) (w x y : Word) (enc : Nat), decode cfg w x y ≠ .error (.badOperandEncoding enc)) ∧
  (∀ (s : State) (enc : Nat), step s ≠ .fault (.badOperandEncoding enc))

/-- R80, R70 (and R187 (e), D15): the length function agrees with the encoding of every instruction but HLT, which is
executed as one word; `len` still counts the ignored field of a HLT word. -/
def Obligations.LengthIsTheNumberOfWords : Prop :=
  ∀ (cfg : Config) (i : Instr), cfg.wf = true → i.wf = true →
    match i with
    | .hlt field => (encode cfg i).length = 1 ∧ len ((encode cfg i).getD 0 0) = 1 + ext field
    | _          => (encode cfg i).length = len ((encode cfg i).getD 0 0) ∧ (encode cfg i).length ≤ 3

/-! ## Operands -/

/-- R104, R105, R106, R113 to R118: the slot, the extension words and the side effect on PC of every encoding but the
three of the stack. `Reg.ofNum` is the numbering of `x[n]`; which name has which number is D6 and is not claimed here.
The extension word `nw`, the word at PC when the operand is resolved, is handed to the decoder, which is the model's own
way (DEDUCED: assumption 3). The cycle it costs is charged at the end of the step (R125) and is no part of this. -/
def Obligations.RegisterNextWordAndLiteralEncodingsResolve : Prop :=
  ∀ s : State,
    let nw := s.memRead s.pc
    let past := s.setPc (s.pc + 1)
    (∀ (n : Nat) (r : Reg), Reg.ofNum n = some r →
      ResolvesTo n nw 0 (.reg (.gen r)) s s ∧
      ResolvesTo (0x08 + n) nw 0 (.mem (s.reg r)) s s ∧
      ResolvesTo (0x10 + n) nw 1 (.mem (nw + s.reg r)) s past) ∧
    ResolvesTo 0x1B nw 0 (.reg .sp) s s ∧
    ResolvesTo 0x1C nw 0 (.reg .pc) s s ∧
    ResolvesTo 0x1D nw 0 (.reg .o) s s ∧
    ResolvesTo 0x1E nw 1 (.mem nw) s past ∧
    ResolvesTo 0x1F nw 1 (.imm nw) s past ∧
    (∀ v : Nat, v < 32 → ResolvesTo (0x20 + v) nw 0 (.imm (BitVec.ofNat 16 v)) s s) ∧
    (∀ (w v : Word) (t : State), readSlot (.imm w) t = w ∧ writeSlot (.imm w) v t = t)

/-- R110, R111, R112 (D7): POP, PEEK and PUSH, for every SP, at both ends of memory too. -/
def Obligations.StackEncodingsResolve : Prop :=
  ∀ s : State,
    let nw := s.memRead s.pc
    ResolvesTo 0x18 nw 0 (.mem s.sp) s (s.setSp (s.sp + 1)) ∧
    ResolvesTo 0x19 nw 0 (.mem s.sp) s s ∧
    ResolvesTo 0x1A nw 0 (.mem (s.sp - 1)) s (s.setSp (s.sp - 1))

/-- R122 (D5, D8), R103: the words `a` and `b` of a basic instruction are what their slots hold after both operands are
resolved, A first, for every pair of operands. -/
def Obligations.OperandsAreReadAfterBothResolutions : Prop :=
  ∀ (a b : Operand) (s : State),
    let pcEnd := s.pc + BitVec.ofNat 16 (a.ext + b.ext)
    let spEnd := s.sp + spMove a + spMove b
    valueA a b s = operandReads a s.sp pcEnd spEnd s ∧
    valueB a b s = operandReads b (s.sp + spMove a) pcEnd spEnd s

/-! ## Basic instructions: result, O, cost, completion and frame -/

/-- R140 (D11 for O). -/
def Obligations.SetCopiesTheSource : Prop :=
  ∀ (a b : Operand) (s : State), ∃ t, exec (.set a b) s = .next t ∧ WritesPlain (valueB a b s) 1 a b s t

/-- R142. -/
def Obligations.AddWrapsAndSetsOToTheCarry : Prop :=
  ∀ (a b : Operand) (s : State),
    let va := valueA a b s
    let vb := valueB a b s
    encode s.cfg (.add a b) = basicWord 0x2 a.enc b.enc :: (a.extWords ++ b.extWords) ∧
    ∃ t, exec (.add a b) s = .next t ∧
      WritesWithO (va + vb) (if 65536 ≤ va.toNat + vb.toNat then 1 else 0) 2 a b s t

/-- R144. -/
def Obligations.SubWrapsAndSetsOToTheBorrow : Prop :=
  ∀ (a b : Operand) (s : State),
    let va := valueA a b s
    let vb := valueB a b s
    encode s.cfg (.sub a b) = basicWord 0x3 a.enc b.enc :: (a.extWords ++ b.extWords) ∧
    ∃ t, exec (.sub a b) s = .next t ∧
      WritesWithO (va - vb) (if va.toNat < vb.toNat then 0xFFFF else 0) 2 a b s t

/-- R146. -/
def Obligations.MulSplitsTheProductBetweenDestinationAndO : Prop :=
  ∀ (a b : Operand) (s : State),
    let va := valueA a b s
    let vb := valueB a b s
    encode s.cfg (.mul a b) = basicWord 0x4 a.enc b.enc :: (a.extWords ++ b.extWords) ∧
    ∃ lo hi t, exec (.mul a b) s = .next t ∧
      hi.toNat * 65536 + lo.toNat = va.toNat * vb.toNat ∧ WritesWithO lo hi 2 a b s t

/-- R148 (D12 for O with a divisor that is not 0, in both modes). -/
def Obligations.DivGivesQuotientAndFraction : Prop :=
  ∀ (a b : Operand) (s : State),
    let va := valueA a b s
    let vb := valueB a b s
    ∃ q ov t, exec (.div a b) s = .next t ∧ WritesWithO q ov 3 a b s t ∧
      (vb = 0 → q = 0 ∧ ov = 0) ∧
      (vb ≠ 0 →
        q.toNat * vb.toNat ≤ va.toNat ∧ va.toNat < (q.toNat + 1) * vb.toNat ∧
        (s.cfg.divOMode = .quotient → ov.toNat = q.toNat * 65536 / vb.toNat % 65536) ∧
        (s.cfg.divOMode = .dividend → ov.toNat = (va.toNat - q.toNat * vb.toNat) * 65536 / vb.toNat))

/-- R150 (D11 for O). -/
def Obligations.ModGivesTheRemainder : Prop :=
  ∀ (a b : Operand) (s : State),
    let va := valueA a b s
    let vb := valueB a b s
    ∃ r t, exec (.mod a b) s = .next t ∧ WritesPlain r 3 a b s t ∧
      (vb = 0 → r = 0) ∧
      (vb ≠ 0 → r.toNat < vb.toNat ∧ va.toNat = va.toNat / vb.toNat * vb.toNat + r.toNat)

/-- R161 (D13): the destination and O are the low and the high half of the 32-bit value shifted left, in both count
modes, for every count. -/
def Obligations.ShlShiftsLeftIntoO : Prop :=
  ∀ (a b : Operand) (s : State),
    let va := valueA a b s
    let vb := valueB a b s
    let n := if s.cfg.shiftCountMode = .mask5 then vb.toNat % 32 else vb.toNat
    let wide : BitVec 32 := va.setWidth 32 <<< n
    ∃ t, exec (.shl a b) s = .next t ∧
      WritesWithO (wide.extractLsb' 0 16) (wide.extractLsb' 16 16) 2 a b s t

/-- R163 (D13): the destination and O are the high and the low half of the 32-bit value shifted right, in both count
modes, for every count. -/
def Obligations.ShrShiftsRightIntoO : Prop :=
  ∀ (a b : Operand) (s : State),
    let va := valueA a b s
    let vb := valueB a b s
    let n := if s.cfg.shiftCountMode = .mask5 then vb.toNat % 32 else vb.toNat
    let wide : BitVec 32 := (va.setWidth 32 <<< 16) >>> n
    ∃ t, exec (.shr a b) s = .next t ∧
      WritesWithO (wide.extractLsb' 16 16) (wide.extractLsb' 0 16) 2 a b s t

/-- R165, R167, R169 (D11 for O): the result is named bit by bit. -/
def Obligations.AndOrXorWorkBitByBit : Prop :=
  ∀ (a b : Operand) (s : State),
    let va := valueA a b s
    let vb := valueB a b s
    (∃ v t, exec (.and a b) s = .next t ∧ WritesPlain v 1 a b s t ∧
      ∀ k, v.getLsbD k = (va.getLsbD k && vb.getLsbD k)) ∧
    (∃ v t, exec (.or a b) s = .next t ∧ WritesPlain v 1 a b s t ∧
      ∀ k, v.getLsbD k = (va.getLsbD k || vb.getLsbD k)) ∧
    (∃ v t, exec (.xor a b) s = .next t ∧ WritesPlain v 1 a b s t ∧
      ∀ k, v.getLsbD k = (va.getLsbD k != vb.getLsbD k))

/-- R180 to R184 (D14), R186, R189: each conditional completes whatever word follows it (R187, D15), writes nothing, and
skips exactly the following instruction when its test is false. -/
def Obligations.ConditionalsSkipUnlessTheirTestHolds : Prop :=
  ∀ (a b : Operand) (s : State),
    let va := valueA a b s
    let vb := valueB a b s
    (∃ t, exec (.ife a b) s = .next t ∧ CondOutcome (va = vb) a b s t) ∧
    (∃ t, exec (.ifn a b) s = .next t ∧ CondOutcome (va ≠ vb) a b s t) ∧
    (∃ t, exec (.ifg a b) s = .next t ∧ CondOutcome (vb.toNat < va.toNat) a b s t) ∧
    (∃ t, exec (.ifb a b) s = .next t ∧
      CondOutcome (∃ k : Nat, va.getLsbD k = true ∧ vb.getLsbD k = true) a b s t)

/-- R121 and, for O, R124 (D10): with an immediate as operand A the eleven writing instructions complete, cost what they
cost with a register there, move PC and SP as resolution does, and change nothing else but, for six of them, O. -/
def Obligations.ImmediateDestinationsDropTheWrite : Prop :=
  ∀ (a b : Operand) (s : State), (∃ v, a = .lit v) ∨ (∃ nw, a = .nextLit nw) →
    let quiet (i : Instr) (cost : Nat) (writesO : Prop) : Prop :=
      ∃ t, exec i s = .next t ∧ t.regs = s.regs ∧ t.mem = s.mem ∧ t.phase = s.phase ∧ t.cfg = s.cfg ∧
        t.pc = s.pc + BitVec.ofNat 16 (a.ext + b.ext) ∧ t.sp = s.sp + spMove b ∧
        t.cyc = s.cyc + s.cfg.fetchCost + cost + a.ext + b.ext ∧ (¬ writesO → t.o = s.o)
    quiet (.set a b) 1 False ∧ quiet (.mod a b) 3 False ∧
    quiet (.and a b) 1 False ∧ quiet (.or a b) 1 False ∧ quiet (.xor a b) 1 False ∧
    quiet (.add a b) 2 True ∧ quiet (.sub a b) 2 True ∧ quiet (.mul a b) 2 True ∧
    quiet (.div a b) 3 True ∧ quiet (.shl a b) 2 True ∧ quiet (.shr a b) 2 True

/-- R123 (D5, D7, D8, D9): one place as both operands, whatever the two operands that name it, and a register that is
one operand and the address or the index of the other. ADD of O to itself is left with the carry (R124). -/
def Obligations.AliasedOperandsAreReadBeforeTheWrite : Prop :=
  (∀ (a b : Operand) (s : State), slotA a s = slotB a b s →
    let v := valueA a b s
    (∃ t, exec (.add a b) s = .next t ∧ (slotA a s ≠ .reg .o → SlotHolds (slotA a s) (2 * v) t)) ∧
    (∃ t, exec (.sub a b) s = .next t ∧ SlotHolds (slotA a s) 0 t ∧ t.o = 0) ∧
    (∃ t, exec (.xor a b) s = .next t ∧ SlotHolds (slotA a s) 0 t) ∧
    (∃ t, exec (.set a b) s = .next t ∧ (∀ r, t.reg r = s.reg r) ∧ t.o = s.o ∧
      t.pc = s.pc + BitVec.ofNat 16 (a.ext + b.ext) ∧ t.sp = s.sp + spMove a + spMove b ∧
      ∀ k, t.memRead k = s.memRead k)) ∧
  ∀ (r : Reg) (nw : Word) (s : State),
    (∃ t, exec (.add (.reg r) (.reg r)) s = .next t ∧ t.reg r = 2 * s.reg r) ∧
    (∃ t, exec (.sub (.reg r) (.reg r)) s = .next t ∧ t.reg r = 0 ∧ t.o = 0) ∧
    (∃ t, exec (.xor (.reg r) (.reg r)) s = .next t ∧ t.reg r = 0) ∧
    (∃ t, exec (.xor (.ind r) (.ind r)) s = .next t ∧ t.memRead (s.reg r) = 0 ∧
      ∀ k, k ≠ s.reg r → t.memRead k = s.memRead k) ∧
    (∃ t, exec (.set (.reg r) (.reg r)) s = .next t ∧ (∀ q, t.readReg q = s.readReg q) ∧
      ∀ k, t.memRead k = s.memRead k) ∧
    (∃ t, exec (.set (.reg r) (.ind r)) s = .next t ∧ t.reg r = s.memRead (s.reg r)) ∧
    (∃ t, exec (.set (.reg r) (.idx nw r)) s = .next t ∧ t.reg r = s.memRead (nw + s.reg r)) ∧
    (∃ t, exec (.set (.ind r) (.reg r)) s = .next t ∧ t.memRead (s.reg r) = s.reg r ∧ t.reg r = s.reg r) ∧
    (∃ t, exec (.set (.idx nw r) (.reg r)) s = .next t ∧ t.memRead (nw + s.reg r) = s.reg r ∧ t.reg r = s.reg r) ∧
    (∃ t, exec (.set .peek .pop) s = .next t ∧ ∀ k, t.memRead k = s.memRead k)

/-- R128 (D5, D7, D8): the thirteen pairs of stack operands under SET. `put` is memory after storing at one address. -/
def Obligations.BothOperandsOnTheStack : Prop :=
  ∀ s : State,
    let m := s.memRead
    let p := s.sp
    let gives (a b : Operand) (sp' : Word) (mem' : Word → Word) : Prop :=
      ∃ t, exec (.set a b) s = .next t ∧ t.sp = sp' ∧ ∀ k, t.memRead k = mem' k
    let put (addr v : Word) (k : Word) : Word := if k = addr then v else m k
    gives .push .pop p m ∧
    gives .pop .push p m ∧
    gives .push .peek (p - 1) m ∧
    gives .peek .push (p - 1) (put p (m (p - 1))) ∧
    gives .pop .pop (p + 2) (put p (m (p + 1))) ∧
    gives .push .push (p - 2) (put (p - 1) (m (p - 2))) ∧
    gives .pop .peek (p + 1) (put p (m (p + 1))) ∧
    gives .peek .pop (p + 1) m ∧
    gives .peek .peek p m ∧
    gives .sp .pop (m p) m ∧
    gives .sp .push (m (p - 1)) m ∧
    gives .push .sp (p - 1) (put (p - 1) (p - 1)) ∧
    gives .pop .sp (p + 1) (put p (p + 1))

/-- R110, R112 (D7), 95_test_vectors.md section 4 property 5: a push and a pop give the value back and restore SP, for
every source that does not move SP. -/
def Obligations.PushThenPopGivesTheValueBack : Prop :=
  ∀ (x : Operand) (r : Reg) (s t : State), spMove x = 0 → exec (.set .push x) s = .next t →
    ∃ u, exec (.set (.reg r) .pop) (t.advancePc 1) = .next u ∧ u.reg r = valueB .push x s ∧ u.sp = s.sp

/-! ## Non-basic instructions -/

/-- R201 (D4, D16): HLT sets the phase and changes nothing else, whatever its operand field; at the level of the step PC
stands one above the HLT word. -/
def Obligations.HltSetsThePhaseAndNothingElse : Prop :=
  (∀ (field : Nat) (s : State), ∃ t, exec (.hlt field) s = .next t ∧ t.phase = .halted ∧
    t.regs = s.regs ∧ t.pc = s.pc ∧ t.sp = s.sp ∧ t.o = s.o ∧ t.cyc = s.cyc ∧ t.mem = s.mem ∧ t.cfg = s.cfg) ∧
  (∀ s : State, s.phase = .run → s.memRead s.pc &&& 0x03FF = 0 →
    step s = .next { s with pc := s.pc + 1, phase := .halted })

/-- R205 (D17): the operand is resolved, the address of the next instruction is pushed, and PC becomes the operand's
value read after the push. -/
def Obligations.JsrPushesTheReturnAddressThenJumps : Prop :=
  ∀ (a : Operand) (s : State),
    let ret := s.pc + BitVec.ofNat 16 a.ext
    let top := s.sp + spMove a - 1
    ∃ t, exec (.jsr a) s = .next t ∧
      t.sp = top ∧ t.memRead top = ret ∧ (∀ k, k ≠ top → t.memRead k = s.memRead k) ∧
      t.pc = operandReads a s.sp ret top t ∧
      t.regs = s.regs ∧ t.o = s.o ∧ t.phase = s.phase ∧ t.cfg = s.cfg ∧
      t.cyc = s.cyc + s.cfg.fetchCost + 2 + a.ext

/-- R207, R205 (D17, D7), 95_test_vectors.md section 4 property 6: if the word at the target is `SET PC, POP` (0x61C1),
the step after a JSR comes back to the address after the JSR with SP as the JSR's operand left it. -/
def Obligations.ReturnComesBackAfterTheCall : Prop :=
  ∀ (a : Operand) (s t : State), s.phase = .run → exec (.jsr a) s = .next t → t.memRead t.pc = 0x61C1 →
    ∃ u, step t = .next u ∧ u.pc = s.pc + BitVec.ofNat 16 a.ext ∧ u.sp = s.sp + spMove a ∧ u.regs = s.regs

/-- R210 (D3): a reserved non-basic word faults, or with `NONBASIC_RESERVED = NOP` is stepped over with the side effects
of its operand, at the cost of its extension word and `FETCH_COST`. -/
def Obligations.ReservedWordsFaultOrAreSteppedOver : Prop :=
  ∀ s : State,
    let w := s.memRead s.pc
    s.phase = .run → opField w = 0 → midField w ≠ 0 → midField w ≠ s.cfg.jsrOpcode →
    (s.cfg.nonbasicReserved = .fault → step s = .fault (.illegalInstruction w)) ∧
    (s.cfg.nonbasicReserved = .nop →
      ∃ t, step s = .next t ∧ t.regs = s.regs ∧ t.o = s.o ∧ t.mem = s.mem ∧ t.phase = .run ∧ t.cfg = s.cfg ∧
        t.pc = s.pc + BitVec.ofNat 16 (len w) ∧
        t.sp = (if topField w = 0x18 then s.sp + 1 else if topField w = 0x1A then s.sp - 1 else s.sp) ∧
        t.cyc = s.cyc + s.cfg.fetchCost + ext (topField w))

/-! ## The step -/

/-- R101, R102: in phase Run, if the words at PC decode to `i`, the step is `exec i` in the state with PC past the first
word. -/
def Obligations.StepRunsTheDecodedInstruction : Prop :=
  ∀ (s : State) (i : Instr), s.phase = .run →
    decode s.cfg (s.memRead s.pc) (s.memRead (s.pc + 1)) (s.memRead (s.pc + 2)) = .ok i →
    step s = exec i (s.setPc (s.pc + 1))

/-- R126: in phase Run the step is the spec's pseudocode of it, for all parameters and every word. -/
def Obligations.StepIsThePseudocodeOfTheSpec : Prop :=
  ∀ s : State, s.phase = .run → step s = pseudoStep s

/-- R60 (D22), R31: an instruction whose words are stored at PC is what the next step runs. -/
def Obligations.StoredWordsAreWhatTheNextStepRuns : Prop :=
  ∀ (s : State) (i : Instr), s.phase = .run → s.cfg.wf = true → i.wf = true →
    let s' := s.place s.pc (encode s.cfg i)
    step s' = exec i (s'.setPc (s.pc + 1))

/-- R79, R81, R82 (D3), 95_test_vectors.md section 4 property 1: what a step in phase Run ends in, by the word at PC. -/
def Obligations.TheWordAtPcDecidesHowAStepEnds : Prop :=
  ∀ s : State, s.phase = .run →
    let w := s.memRead s.pc
    let reserved := w &&& 0x000F = 0 ∧ (w >>> 4) &&& 0x003F ≠ 0 ∧ ((w >>> 4) &&& 0x003F).toNat ≠ s.cfg.jsrOpcode
    (w &&& 0x03FF = 0 → ∃ t, step s = .next t ∧ t.phase = .halted) ∧
    (reserved ∧ s.cfg.nonbasicReserved = .fault →
      step s = .fault (.illegalInstruction w) ∧ phaseAfter s (step s) = .faulted) ∧
    (w &&& 0x03FF ≠ 0 ∧ ¬ (reserved ∧ s.cfg.nonbasicReserved = .fault) → ∃ t, step s = .next t ∧ t.phase = .run)

/-- R100, R202, R224 (D27): outside phase Run no step exists. -/
def Obligations.NoStepExistsOutsidePhaseRun : Prop :=
  ∀ s : State,
    (s.phase = .halted → step s = .refused (.noStep .halted)) ∧
    (s.phase = .faulted → step s = .refused (.noStep .faulted)) ∧
    (s.phase = .run → ∀ r, step s ≠ .refused r)

/-- R29, R270 (D16), 95_test_vectors.md section 4 property 2: CYC never decreases, and every basic instruction and JSR
adds at least 1 and at most 5 more than `FETCH_COST`. -/
def Obligations.CycNeverDecreases : Prop :=
  ∀ s t : State, step s = .next t →
    let w := s.memRead s.pc
    s.cyc ≤ t.cyc ∧
    (opField w ≠ 0 ∨ (midField w ≠ 0 ∧ midField w = s.cfg.jsrOpcode) →
      s.cyc + s.cfg.fetchCost + 1 ≤ t.cyc ∧ t.cyc ≤ s.cyc + s.cfg.fetchCost + 5)

/-- R271, R29, R231: nothing but CYC depends on CYC. -/
def Obligations.NoStepDependsOnCyc : Prop :=
  ∀ (n : Nat) (s : State), step (s.addCyc n) = moreCycles n (step s)

/-- R80, R102, 95_test_vectors.md section 4 property 4: a step of a basic word that is no conditional and whose operand A
is not PC ends with PC past the instruction's whole length. -/
def Obligations.PcMovesPastTheWholeInstruction : Prop :=
  ∀ s : State,
    let w := s.memRead s.pc
    s.phase = .run → opField w ≠ 0 → opField w < 12 → midField w ≠ 0x1C →
    ∃ t, step s = .next t ∧ t.pc = s.pc + BitVec.ofNat 16 (len w)

/-! ## Runs -/

/-- R254: a run from a state in phase Run ends successfully exactly when it reaches a step that executes HLT; its
final state is the state that step found, with PC one above the HLT word; and no other run has a final state. -/
def Obligations.ARunSucceedsExactlyWhenItExecutesHlt : Prop :=
  ∀ s : State, s.phase = .run →
    (∀ t, EndsWith s t ↔
      ∃ u, Reaches s u ∧ u.phase = .run ∧ u.memRead u.pc &&& 0x03FF = 0 ∧
        t = { u with pc := u.pc + 1, phase := .halted }) ∧
    (∀ n r, readFinal (runFor n s) = some r →
      ∃ t, EndsWith s t ∧ r = ⟨t.regs, t.pc, t.sp, t.o, t.cyc, t.mem⟩)

/-- R252, R254: a run has at most one final state, whatever bound finds it. -/
def Obligations.TheFinalStateIsUnique : Prop :=
  ∀ (m n : Nat) (s t : State), runFor m s = .success t → m ≤ n →
    runFor n s = .success t ∧
    readFinal (runFor n s) = some ⟨t.regs, t.pc, t.sp, t.o, t.cyc, t.mem⟩

/-- R220 (D3), R222 (D20): the only fault a run can end in is the illegal instruction of a reserved non-basic word it
fetched, and with `NONBASIC_RESERVED = NOP` no run faults. -/
def Obligations.OnlyReservedWordsEndARunInAFault : Prop :=
  (∀ (n : Nat) (s : State) (f : Fault), runFor n s = .runtimeError f →
    readFinal (runFor n s) = none ∧
    ∃ u, Reaches s u ∧ f = .illegalInstruction (u.memRead u.pc) ∧ opField (u.memRead u.pc) = 0 ∧
      midField (u.memRead u.pc) ≠ 0 ∧ midField (u.memRead u.pc) ≠ s.cfg.jsrOpcode ∧
      s.cfg.nonbasicReserved = .fault) ∧
  (∀ s : State, s.cfg.nonbasicReserved = .nop → NeverFaults s)
end

