-- ==== Sys2Proof/Laws/Decode.lean ====
section
/-! SUPPORT. The fields of an encoded word, operands read back from their encodings, and what an accepted word was. -/

namespace Sys2Proof

theorem opField_le (w : Word) : opField w ≤ 15 := by simp only [opField]; omega

theorem midField_le (w : Word) : midField w ≤ 63 := by simp only [midField]; omega

theorem topField_le (w : Word) : topField w ≤ 63 := by have := w.isLt; simp only [topField]; omega

theorem basicWord_toNat {op a b : Nat} (ho : op ≤ 15) (ha : a ≤ 63) (hb : b ≤ 63) :
    (basicWord op a b).toNat = b * 1024 + a * 16 + op := by
  simp [basicWord, trunc16]; omega

theorem nonBasicWord_toNat {nb a : Nat} (hn : nb ≤ 63) (ha : a ≤ 63) :
    (nonBasicWord nb a).toNat = a * 1024 + nb * 16 := by
  simp [nonBasicWord, trunc16]; omega

theorem Reg.ofNum_num (r : Reg) : Reg.ofNum r.num = some r := by cases r <;> rfl

theorem Reg.num_lt (r : Reg) : r.num < 8 := by cases r <;> decide

theorem Reg.num_of_ofNum {n : Nat} {r : Reg} (h : Reg.ofNum n = some r) : r.num = n := by
  unfold Reg.ofNum at h
  split at h <;> cases h <;> rfl

theorem ext_eq_zero_or_one (e : Nat) : ext e = 0 ∨ ext e = 1 := by unfold ext; split <;> simp

theorem Operand.ext_le (p : Operand) : p.ext ≤ 1 := by cases p <;> simp [Operand.ext, Operand.extWords]

theorem Operand.enc_le {p : Operand} (h : p.wf = true) : p.enc ≤ 63 := by
  cases p <;> simp only [Operand.enc, Operand.wf, decide_eq_true_eq] at * <;>
    first | omega | (have := Reg.num_lt ‹Reg›; omega)

/-- The encoding says how many extension words the operand has (R80). -/
theorem Operand.ext_enc {p : Operand} (h : p.wf = true) : Sys2Proof.ext p.enc = p.ext := by
  cases p with
  | lit v =>
    simp only [Operand.wf, decide_eq_true_eq] at h
    exact if_neg (by simp only [Operand.enc]; omega)
  | reg r => cases r <;> rfl
  | ind r => cases r <;> rfl
  | idx n r => cases r <;> rfl
  | _ => rfl

/-- Every well-formed operand is read back from its encoding and its extension word, if it has one. -/
theorem decodeOperand_enc {p : Operand} (h : p.wf = true) (x : Word) :
    decodeOperand p.enc (p.extWords.getD 0 x) = some p := by
  cases p with
  | lit v =>
    have key : ∀ v, v < 32 → decodeOperand (0x20 + v) x = some (.lit v) := by
      intro v hv; interval_cases v <;> rfl
    exact key v (by simpa [Operand.wf] using h)
  | reg r => cases r <;> rfl
  | ind r => cases r <;> rfl
  | idx n r => cases r <;> rfl
  | _ => rfl

/-- Every 6-bit encoding names an operand (R75). -/
theorem decodeOperand_total {e : Nat} (he : e ≤ 63) (x : Word) : ∃ p, decodeOperand e x = some p := by
  interval_cases e <;> exact ⟨_, rfl⟩

/-- What an operand that was read back says of its encoding. -/
theorem decodeOperand_inv {e : Nat} {x : Word} {p : Operand} (h : decodeOperand e x = some p) :
    p.wf = true ∧ p.enc = e ∧ p.extWords = [x].take (ext e) ∧ e ≤ 63 := by
  have he : e ≤ 63 := by
    by_contra hc
    unfold decodeOperand at h
    repeat rw [if_neg (by omega)] at h
    cases h
  refine ⟨?_, ?_, ?_, he⟩ <;> interval_cases e <;> cases h <;> rfl

/-- The basic opcode map covers 1 to 15 and its instructions encode with the opcode they were found under (R77). -/
theorem basicOf_inv {op : Nat} {mk : Operand → Operand → Instr} (h : basicOf op = some mk) :
    op ≠ 0 ∧ ∀ (cfg : Config) (a b : Operand),
      encode cfg (mk a b) = encodeBasic op a b ∧ (mk a b).wf = (a.wf && b.wf) := by
  unfold basicOf at h
  split at h <;> cases h <;> exact ⟨by decide, fun _ _ _ => ⟨rfl, rfl⟩⟩

theorem basicOf_eq_none {op : Nat} (h : op ≤ 15) (hn : basicOf op = none) : op = 0 := by
  by_contra hne
  have : 1 ≤ op := by omega
  interval_cases op <;> cases hn

/-- Everything an accepted word can be: HLT, JSR or a basic instruction (R71, R78). -/
theorem decode_ok_inv {cfg : Config} {w x y : Word} {i : Instr} (h : decode cfg w x y = .ok i) :
    (opField w = 0 ∧ midField w = 0 ∧ i = .hlt (topField w)) ∨
    (opField w = 0 ∧ midField w ≠ 0 ∧ midField w = cfg.jsrOpcode ∧
      ∃ a, i = .jsr a ∧ decodeOperand (topField w) x = some a) ∨
    (∃ mk a b, basicOf (opField w) = some mk ∧ i = mk a b ∧ decodeOperand (midField w) x = some a ∧
      decodeOperand (topField w) (if ext (midField w) = 1 then y else x) = some b) := by
  unfold decode at h
  split at h
  next mk hmk =>
    unfold decodeBasic at h
    split at h
    next a b ha hb => cases h; exact .inr (.inr ⟨mk, a, b, hmk, rfl, ha, hb⟩)
    all_goals cases h
  next hn =>
    have h0 := basicOf_eq_none (opField_le w) hn
    unfold decodeNonBasic at h
    split at h
    next hm => cases h; exact .inl ⟨h0, hm, rfl⟩
    next hm =>
      split at h
      next hj =>
        split at h
        next a ha => cases h; exact .inr (.inl ⟨h0, hm, hj, a, rfl, ha⟩)
        next => cases h
      next => cases h

end Sys2Proof
end

