-- ==== Sys2Proof/Laws/State.lean ====
section
/-! SUPPORT. What each update of the state leaves in each field, and reads of registers after writes. -/

namespace Sys2Proof.Machine

variable (s : State)

@[simp] theorem State.setReg_regs (r : Reg) (v : Word) : (s.setReg r v).regs = s.regs.set r v := rfl
@[simp] theorem State.setReg_pc (r : Reg) (v : Word) : (s.setReg r v).pc = s.pc := rfl
@[simp] theorem State.setReg_sp (r : Reg) (v : Word) : (s.setReg r v).sp = s.sp := rfl
@[simp] theorem State.setReg_o (r : Reg) (v : Word) : (s.setReg r v).o = s.o := rfl
@[simp] theorem State.setReg_cyc (r : Reg) (v : Word) : (s.setReg r v).cyc = s.cyc := rfl
@[simp] theorem State.setReg_mem (r : Reg) (v : Word) : (s.setReg r v).mem = s.mem := rfl
@[simp] theorem State.setReg_phase (r : Reg) (v : Word) : (s.setReg r v).phase = s.phase := rfl
@[simp] theorem State.setReg_cfg (r : Reg) (v : Word) : (s.setReg r v).cfg = s.cfg := rfl
@[simp] theorem State.memRead_setReg (r : Reg) (v : Word) (k : Word) : (s.setReg r v).memRead k = s.memRead k := rfl

@[simp] theorem State.setPc_regs (v : Word) : (s.setPc v).regs = s.regs := rfl
@[simp] theorem State.setPc_pc (v : Word) : (s.setPc v).pc = v := rfl
@[simp] theorem State.setPc_sp (v : Word) : (s.setPc v).sp = s.sp := rfl
@[simp] theorem State.setPc_o (v : Word) : (s.setPc v).o = s.o := rfl
@[simp] theorem State.setPc_cyc (v : Word) : (s.setPc v).cyc = s.cyc := rfl
@[simp] theorem State.setPc_mem (v : Word) : (s.setPc v).mem = s.mem := rfl
@[simp] theorem State.setPc_phase (v : Word) : (s.setPc v).phase = s.phase := rfl
@[simp] theorem State.setPc_cfg (v : Word) : (s.setPc v).cfg = s.cfg := rfl
@[simp] theorem State.reg_setPc (v : Word) (q : Reg) : (s.setPc v).reg q = s.reg q := rfl
@[simp] theorem State.memRead_setPc (v : Word) (k : Word) : (s.setPc v).memRead k = s.memRead k := rfl

@[simp] theorem State.setSp_regs (v : Word) : (s.setSp v).regs = s.regs := rfl
@[simp] theorem State.setSp_pc (v : Word) : (s.setSp v).pc = s.pc := rfl
@[simp] theorem State.setSp_sp (v : Word) : (s.setSp v).sp = v := rfl
@[simp] theorem State.setSp_o (v : Word) : (s.setSp v).o = s.o := rfl
@[simp] theorem State.setSp_cyc (v : Word) : (s.setSp v).cyc = s.cyc := rfl
@[simp] theorem State.setSp_mem (v : Word) : (s.setSp v).mem = s.mem := rfl
@[simp] theorem State.setSp_phase (v : Word) : (s.setSp v).phase = s.phase := rfl
@[simp] theorem State.setSp_cfg (v : Word) : (s.setSp v).cfg = s.cfg := rfl
@[simp] theorem State.reg_setSp (v : Word) (q : Reg) : (s.setSp v).reg q = s.reg q := rfl
@[simp] theorem State.memRead_setSp (v : Word) (k : Word) : (s.setSp v).memRead k = s.memRead k := rfl

@[simp] theorem State.setO_regs (v : Word) : (s.setO v).regs = s.regs := rfl
@[simp] theorem State.setO_pc (v : Word) : (s.setO v).pc = s.pc := rfl
@[simp] theorem State.setO_sp (v : Word) : (s.setO v).sp = s.sp := rfl
@[simp] theorem State.setO_o (v : Word) : (s.setO v).o = v := rfl
@[simp] theorem State.setO_cyc (v : Word) : (s.setO v).cyc = s.cyc := rfl
@[simp] theorem State.setO_mem (v : Word) : (s.setO v).mem = s.mem := rfl
@[simp] theorem State.setO_phase (v : Word) : (s.setO v).phase = s.phase := rfl
@[simp] theorem State.setO_cfg (v : Word) : (s.setO v).cfg = s.cfg := rfl
@[simp] theorem State.reg_setO (v : Word) (q : Reg) : (s.setO v).reg q = s.reg q := rfl
@[simp] theorem State.memRead_setO (v : Word) (k : Word) : (s.setO v).memRead k = s.memRead k := rfl

@[simp] theorem State.addCyc_regs (n : Nat) : (s.addCyc n).regs = s.regs := rfl
@[simp] theorem State.addCyc_pc (n : Nat) : (s.addCyc n).pc = s.pc := rfl
@[simp] theorem State.addCyc_sp (n : Nat) : (s.addCyc n).sp = s.sp := rfl
@[simp] theorem State.addCyc_o (n : Nat) : (s.addCyc n).o = s.o := rfl
@[simp] theorem State.addCyc_cyc (n : Nat) : (s.addCyc n).cyc = s.cyc + n := rfl
@[simp] theorem State.addCyc_mem (n : Nat) : (s.addCyc n).mem = s.mem := rfl
@[simp] theorem State.addCyc_phase (n : Nat) : (s.addCyc n).phase = s.phase := rfl
@[simp] theorem State.addCyc_cfg (n : Nat) : (s.addCyc n).cfg = s.cfg := rfl
@[simp] theorem State.reg_addCyc (n : Nat) (q : Reg) : (s.addCyc n).reg q = s.reg q := rfl
@[simp] theorem State.memRead_addCyc (n : Nat) (k : Word) : (s.addCyc n).memRead k = s.memRead k := rfl

@[simp] theorem State.setPhase_regs (p : Phase) : (s.setPhase p).regs = s.regs := rfl
@[simp] theorem State.setPhase_pc (p : Phase) : (s.setPhase p).pc = s.pc := rfl
@[simp] theorem State.setPhase_sp (p : Phase) : (s.setPhase p).sp = s.sp := rfl
@[simp] theorem State.setPhase_o (p : Phase) : (s.setPhase p).o = s.o := rfl
@[simp] theorem State.setPhase_cyc (p : Phase) : (s.setPhase p).cyc = s.cyc := rfl
@[simp] theorem State.setPhase_mem (p : Phase) : (s.setPhase p).mem = s.mem := rfl
@[simp] theorem State.setPhase_phase (p : Phase) : (s.setPhase p).phase = p := rfl
@[simp] theorem State.setPhase_cfg (p : Phase) : (s.setPhase p).cfg = s.cfg := rfl
@[simp] theorem State.reg_setPhase (p : Phase) (q : Reg) : (s.setPhase p).reg q = s.reg q := rfl
@[simp] theorem State.memRead_setPhase (p : Phase) (k : Word) : (s.setPhase p).memRead k = s.memRead k := rfl

@[simp] theorem State.memWrite_regs (addr v : Word) : (s.memWrite addr v).regs = s.regs := rfl
@[simp] theorem State.memWrite_pc (addr v : Word) : (s.memWrite addr v).pc = s.pc := rfl
@[simp] theorem State.memWrite_sp (addr v : Word) : (s.memWrite addr v).sp = s.sp := rfl
@[simp] theorem State.memWrite_o (addr v : Word) : (s.memWrite addr v).o = s.o := rfl
@[simp] theorem State.memWrite_cyc (addr v : Word) : (s.memWrite addr v).cyc = s.cyc := rfl
@[simp] theorem State.memWrite_mem (addr v : Word) : (s.memWrite addr v).mem = Memory.writeAt s.mem addr.toNat v := rfl
@[simp] theorem State.memWrite_phase (addr v : Word) : (s.memWrite addr v).phase = s.phase := rfl
@[simp] theorem State.memWrite_cfg (addr v : Word) : (s.memWrite addr v).cfg = s.cfg := rfl
@[simp] theorem State.reg_memWrite (addr v : Word) (q : Reg) : (s.memWrite addr v).reg q = s.reg q := rfl

@[simp] theorem State.advancePc_regs (n : Nat) : (s.advancePc n).regs = s.regs := rfl
@[simp] theorem State.advancePc_pc (n : Nat) : (s.advancePc n).pc = trunc16 (s.pc.toNat + n) := rfl
@[simp] theorem State.advancePc_sp (n : Nat) : (s.advancePc n).sp = s.sp := rfl
@[simp] theorem State.advancePc_o (n : Nat) : (s.advancePc n).o = s.o := rfl
@[simp] theorem State.advancePc_cyc (n : Nat) : (s.advancePc n).cyc = s.cyc := rfl
@[simp] theorem State.advancePc_mem (n : Nat) : (s.advancePc n).mem = s.mem := rfl
@[simp] theorem State.advancePc_phase (n : Nat) : (s.advancePc n).phase = s.phase := rfl
@[simp] theorem State.advancePc_cfg (n : Nat) : (s.advancePc n).cfg = s.cfg := rfl
@[simp] theorem State.reg_advancePc (n : Nat) (q : Reg) : (s.advancePc n).reg q = s.reg q := rfl
@[simp] theorem State.memRead_advancePc (n : Nat) (k : Word) : (s.advancePc n).memRead k = s.memRead k := rfl

@[simp] theorem State.charge_regs (n : Nat) : (s.charge n).regs = s.regs := rfl
@[simp] theorem State.charge_pc (n : Nat) : (s.charge n).pc = s.pc := rfl
@[simp] theorem State.charge_sp (n : Nat) : (s.charge n).sp = s.sp := rfl
@[simp] theorem State.charge_o (n : Nat) : (s.charge n).o = s.o := rfl
@[simp] theorem State.charge_cyc (n : Nat) : (s.charge n).cyc = s.cyc + (s.cfg.fetchCost + n) := rfl
@[simp] theorem State.charge_mem (n : Nat) : (s.charge n).mem = s.mem := rfl
@[simp] theorem State.charge_phase (n : Nat) : (s.charge n).phase = s.phase := rfl
@[simp] theorem State.charge_cfg (n : Nat) : (s.charge n).cfg = s.cfg := rfl
@[simp] theorem State.reg_charge (n : Nat) (q : Reg) : (s.charge n).reg q = s.reg q := rfl
@[simp] theorem State.memRead_charge (n : Nat) (k : Word) : (s.charge n).memRead k = s.memRead k := rfl

@[simp] theorem RegFile.get_set_same (f : RegFile) (r : Reg) (v : Word) : (f.set r v).get r = v := by cases r <;> rfl

theorem RegFile.get_set_of_ne (f : RegFile) {r q : Reg} (h : q ≠ r) (v : Word) : (f.set r v).get q = f.get q := by
  cases r <;> cases q <;> first | rfl | exact absurd rfl h

@[simp] theorem State.reg_setReg_same (r : Reg) (v : Word) : (s.setReg r v).reg r = v := s.regs.get_set_same r v

theorem State.reg_setReg_of_ne {r q : Reg} (h : q ≠ r) (v : Word) : (s.setReg r v).reg q = s.reg q :=
  s.regs.get_set_of_ne h v

@[simp] theorem State.readReg_writeReg_same (r : RegName) (v : Word) : (s.writeReg r v).readReg r = v := by
  cases r <;> simp [State.writeReg, State.readReg]

/-- Writing one register leaves every other register as it was. -/
theorem State.readReg_writeReg_of_ne {r q : RegName} (h : q ≠ r) (v : Word) :
    (s.writeReg r v).readReg q = s.readReg q := by
  cases r <;> cases q <;> first
    | rfl
    | exact absurd rfl h
    | exact s.reg_setReg_of_ne (fun e => h (congrArg RegName.gen e)) v

/-- Two register files that agree register by register are one. -/
theorem RegFile.eq_of_get {f g : RegFile} (h : ∀ r, f.get r = g.get r) : f = g := by
  obtain ⟨fa, fb, fc, fx, fy, fz, fi, fj⟩ := f
  obtain ⟨ga, gb, gc, gx, gy, gz, gi, gj⟩ := g
  have ha : fa = ga := h .A
  have hb : fb = gb := h .B
  have hc : fc = gc := h .C
  have hx : fx = gx := h .X
  have hy : fy = gy := h .Y
  have hz : fz = gz := h .Z
  have hi : fi = gi := h .I
  have hj : fj = gj := h .J
  subst ha hb hc hx hy hz hi hj
  rfl

end Sys2Proof.Machine
end

