-- ==== Sys2Proof/Laws/Memory.lean ====
section
/-! SUPPORT. The laws of memory: a read after a write, and the canonical form kept by every operation. -/

namespace Sys2Proof.Machine

theorem Memory.wfFrom_cons_iff {lo k : Nat} {u : Word} {m : Memory} :
    Memory.wfFrom lo ((k, u) :: m) = true ↔
      lo ≤ k ∧ k < wordCount ∧ u ≠ 0 ∧ Memory.wfFrom (k + 1) m = true := by
  simp only [Memory.wfFrom, Bool.and_eq_true, decide_eq_true_eq, and_assoc]

theorem Memory.wfFrom_mono {lo hi : Nat} {m : Memory} (h : lo ≤ hi) (hm : Memory.wfFrom hi m = true) :
    Memory.wfFrom lo m = true := by
  cases m with
  | nil => rfl
  | cons p m =>
    obtain ⟨h1, rest⟩ := Memory.wfFrom_cons_iff.1 hm
    exact Memory.wfFrom_cons_iff.2 ⟨Nat.le_trans h h1, rest⟩

theorem Memory.readAt_eraseAt (m : Memory) (n q : Nat) :
    Memory.readAt (Memory.eraseAt m n) q = if n = q then 0 else Memory.readAt m q := by
  induction m with
  | nil => simp [Memory.eraseAt, Memory.readAt]
  | cons p m ih =>
    simp only [Memory.eraseAt]
    split
    next h => rw [ih]; subst h; simp only [Memory.readAt]; split <;> rfl
    next h =>
      simp only [Memory.readAt, ih]
      split
      next hq => subst hq; simp [Ne.symm h]
      next => rfl

theorem Memory.readAt_insertAt (m : Memory) (n : Nat) (v : Word) (q : Nat) (h : Memory.readAt m n = 0)
    (h' : ∀ u, (n, u) ∉ m) : Memory.readAt (Memory.insertAt m n v) q = if n = q then v else Memory.readAt m q := by
  induction m with
  | nil => simp [Memory.insertAt, Memory.readAt]
  | cons p m ih =>
    obtain ⟨k, u⟩ := p
    have hk : k ≠ n := by rintro rfl; exact h' u (List.mem_cons_self ..)
    simp only [Memory.readAt, hk, if_false] at h
    simp only [Memory.insertAt]
    split
    next => simp [Memory.readAt]
    next =>
      simp only [Memory.readAt, ih h fun w hw => h' w (List.mem_cons_of_mem _ hw)]
      split
      next hq => subst hq; simp [Ne.symm hk]
      next => rfl

theorem Memory.not_mem_eraseAt (m : Memory) (n : Nat) (u : Word) : (n, u) ∉ Memory.eraseAt m n := by
  induction m with
  | nil => simp [Memory.eraseAt]
  | cons p m ih =>
    simp only [Memory.eraseAt]
    split
    next => exact ih
    next h =>
      rw [List.mem_cons, not_or]
      exact ⟨fun e => h (congrArg Prod.fst e).symm, ih⟩

/-- What any address reads as after a write, for every memory, in canonical form or not. -/
theorem Memory.readAt_writeAt (m : Memory) (n : Nat) (v : Word) (q : Nat) :
    Memory.readAt (Memory.writeAt m n v) q = if n = q then v else Memory.readAt m q := by
  have he := Memory.readAt_eraseAt m n
  unfold Memory.writeAt
  split
  next hv => rw [he, hv]
  next =>
    rw [Memory.readAt_insertAt _ _ _ _ (by simp [he]) (Memory.not_mem_eraseAt m n), he]
    split <;> rfl

theorem Memory.wfFrom_eraseAt {lo : Nat} {m : Memory} (n : Nat) (hm : Memory.wfFrom lo m = true) :
    Memory.wfFrom lo (Memory.eraseAt m n) = true := by
  induction m generalizing lo with
  | nil => exact hm
  | cons p m ih =>
    obtain ⟨h1, h2, h3, h4⟩ := Memory.wfFrom_cons_iff.1 hm
    simp only [Memory.eraseAt]
    split
    next => exact Memory.wfFrom_mono (by omega) (ih h4)
    next => exact Memory.wfFrom_cons_iff.2 ⟨h1, h2, h3, ih h4⟩

theorem Memory.wfFrom_insertAt {lo n : Nat} {v : Word} {m : Memory} (hlo : lo ≤ n) (hn : n < wordCount) (hv : v ≠ 0)
    (h' : ∀ u, (n, u) ∉ m) (hm : Memory.wfFrom lo m = true) : Memory.wfFrom lo (Memory.insertAt m n v) = true := by
  induction m generalizing lo with
  | nil => exact Memory.wfFrom_cons_iff.2 ⟨hlo, hn, hv, rfl⟩
  | cons p m ih =>
    obtain ⟨k, u⟩ := p
    have hk : k ≠ n := by rintro rfl; exact h' u (List.mem_cons_self ..)
    obtain ⟨h1, h2, h3, h4⟩ := Memory.wfFrom_cons_iff.1 hm
    simp only [Memory.insertAt]
    split
    next h => exact Memory.wfFrom_cons_iff.2 ⟨hlo, hn, hv, Memory.wfFrom_cons_iff.2 ⟨h, h2, h3, h4⟩⟩
    next h =>
      exact Memory.wfFrom_cons_iff.2
        ⟨h1, h2, h3, ih (by omega) (fun w hw => h' w (List.mem_cons_of_mem _ hw)) h4⟩

/-- Every write keeps the canonical form. -/
theorem Memory.wf_writeAt {m : Memory} (hm : Memory.wf m = true) (a v : Word) :
    Memory.wf (Memory.writeAt m a.toNat v) = true := by
  unfold Memory.writeAt
  split
  next => exact Memory.wfFrom_eraseAt _ hm
  next hv =>
    exact Memory.wfFrom_insertAt (Nat.zero_le _) a.isLt hv (Memory.not_mem_eraseAt m _) (Memory.wfFrom_eraseAt _ hm)

/-- Below its first address a memory in canonical form reads as 0. -/
theorem Memory.readAt_of_lt {lo n : Nat} {m : Memory} (hm : Memory.wfFrom lo m = true) (h : n < lo) :
    Memory.readAt m n = 0 := by
  induction m generalizing lo with
  | nil => rfl
  | cons p m ih =>
    obtain ⟨h1, _, _, h4⟩ := Memory.wfFrom_cons_iff.1 hm
    simp only [Memory.readAt]
    rw [if_neg (by omega)]
    exact ih h4 (by omega)

/-- Two memories in canonical form that read alike are one list. -/
theorem Memory.eq_of_readAt {lo : Nat} {m m' : Memory} (hm : Memory.wfFrom lo m = true)
    (hm' : Memory.wfFrom lo m' = true) (h : ∀ n, Memory.readAt m n = Memory.readAt m' n) : m = m' := by
  induction m generalizing lo m' with
  | nil =>
    cases m' with
    | nil => rfl
    | cons p t =>
      have := h p.1
      simp only [Memory.readAt, if_true] at this
      exact absurd this.symm (Memory.wfFrom_cons_iff.1 hm').2.2.1
  | cons q m ih =>
    obtain ⟨k, u⟩ := q
    obtain ⟨h1, h2, h3, h4⟩ := Memory.wfFrom_cons_iff.1 hm
    have hk := h k
    simp only [Memory.readAt, if_true] at hk
    cases m' with
    | nil => exact absurd hk h3
    | cons p t =>
      obtain ⟨l, w⟩ := p
      obtain ⟨g1, g2, g3, g4⟩ := Memory.wfFrom_cons_iff.1 hm'
      have hl := h l
      simp only [Memory.readAt, if_true] at hl hk
      rcases Nat.lt_trichotomy k l with hlt | rfl | hlt
      · rw [if_neg (by omega), Memory.readAt_of_lt (lo := l + 1) g4 (by omega)] at hk
        exact absurd hk h3
      · simp only [if_true] at hk
        subst hk
        rw [ih h4 g4 fun n => ?_]
        have hn := h n
        simp only [Memory.readAt] at hn
        by_cases e : k = n
        · subst e
          rw [Memory.readAt_of_lt h4 (by omega), Memory.readAt_of_lt g4 (by omega)]
        · simpa [e] using hn
      · rw [if_neg (by omega), Memory.readAt_of_lt (lo := k + 1) h4 (by omega)] at hl
        exact absurd hl.symm g3

theorem Memory.wfFrom_ofImage {n : Nat} {image : List Word} (h : n + image.length ≤ wordCount) :
    Memory.wfFrom n (Memory.ofImage n image) = true := by
  induction image generalizing n with
  | nil => rfl
  | cons v vs ih =>
    simp only [List.length_cons] at h
    have ih' := ih (n := n + 1) (by omega)
    simp only [Memory.ofImage]
    split
    next => exact Memory.wfFrom_mono (by omega) ih'
    next hv => exact Memory.wfFrom_cons_iff.2 ⟨Nat.le_refl n, by omega, hv, ih'⟩

@[simp] theorem State.memRead_memWrite_same (s : State) (k v : Word) : (s.memWrite k v).memRead k = v := by
  simp [State.memRead, State.memWrite, Memory.readAt_writeAt]

theorem State.memRead_memWrite_of_ne (s : State) {k q : Word} (h : q ≠ k) (v : Word) :
    (s.memWrite k v).memRead q = s.memRead q := by
  have : k.toNat ≠ q.toNat := fun e => h (BitVec.eq_of_toNat_eq e.symm)
  simp [State.memRead, State.memWrite, Memory.readAt_writeAt, this]

/-- A store keeps the canonical form. -/
theorem State.wf_memWrite {s : State} (h : Memory.wf s.mem = true) (k v : Word) :
    Memory.wf (s.memWrite k v).mem = true := Memory.wf_writeAt h k v

end Sys2Proof.Machine
end

