-- ==== Sys2Proof/Laws/Word.lean ====
section
/-! SUPPORT. Truncation to a word: the exact arithmetic of the definitions as word arithmetic. -/

namespace Sys2Proof

theorem trunc16_toNat (n : Nat) : (trunc16 n).toNat = n % 65536 := by simp [trunc16]

theorem trunc16_add (a b : Word) : trunc16 (a.toNat + b.toNat) = a + b := by
  apply BitVec.eq_of_toNat_eq
  simp [trunc16_toNat]

theorem trunc16_add_nat (a : Word) (n : Nat) : trunc16 (a.toNat + n) = a + BitVec.ofNat 16 n := by
  apply BitVec.eq_of_toNat_eq
  simp [trunc16_toNat]

theorem truncInt16_sub (a b : Word) : truncInt16 ((a.toNat : Int) - (b.toNat : Int)) = a - b := by
  apply BitVec.eq_of_toNat_eq
  have ha := a.isLt
  have hb := b.isLt
  simp only [truncInt16, BitVec.toNat_ofInt, BitVec.toNat_sub]
  omega

theorem truncInt16_sub_one (a : Word) : truncInt16 ((a.toNat : Int) - 1) = a - 1 :=
  truncInt16_sub a 1

/-- The subtraction modulo 65536, on naturals. -/
theorem sub_toNat (a b : Word) : (a - b).toNat = (a.toNat + (65536 - b.toNat)) % 65536 := by
  rw [BitVec.toNat_sub, Nat.add_comm]

end Sys2Proof
end

