-- ==== Sys2Proof/Laws/Operands.lean ====
section
/-! SUPPORT. What resolving operands and writing a slot can do. -/

namespace Sys2Proof.Machine

/-- Resolving an operand moves PC past its extension word and SP by a POP or PUSH, and does nothing else. -/
theorem resolve_state (op : Operand) (s : State) :
    (resolve op s).2 = (s.setPc (s.pc + BitVec.ofNat 16 op.ext)).setSp (s.sp + spMove op) := by
  obtain ⟨regs, pc, sp, o, cyc, mem, phase, cfg⟩ := s
  cases op <;>
    simp [resolve, Operand.ext, Operand.extWords, spMove, State.advancePc, State.setPc, State.setSp,
      trunc16_add_nat, truncInt16_sub_one, BitVec.sub_eq_add_neg]

/-- Resolving both operands. -/
theorem resolved_eq (a b : Operand) (s : State) :
    resolved a b s =
      (s.setPc (s.pc + BitVec.ofNat 16 (a.ext + b.ext))).setSp (s.sp + spMove a + spMove b) := by
  simp [resolved, resolve_state, State.setPc, State.setSp, BitVec.ofNat_add, BitVec.add_assoc]

theorem slotHolds_iff_readSlot {sl : Slot} {v : Word} {t : State} (h : ∀ u, sl ≠ .imm u) :
    SlotHolds sl v t ↔ readSlot sl t = v := by
  cases sl with
  | reg r => cases r <;> rfl
  | mem k => rfl
  | imm u => exact absurd rfl (h u)

theorem slotHolds_writeSlot (sl : Slot) (v : Word) (s : State) : SlotHolds sl v (writeSlot sl v s) := by
  cases sl with
  | reg r => cases r <;> simp [SlotHolds, writeSlot, State.writeReg]
  | mem k => simp [SlotHolds, writeSlot]
  | imm u => trivial

/-- A write through a slot changes the place the slot names and nothing else. -/
theorem writeSlot_frame (sl : Slot) (v : Word) (s : State) :
    (∀ r : Reg, sl ≠ .reg (.gen r) → (writeSlot sl v s).reg r = s.reg r) ∧
    (sl ≠ .reg .pc → (writeSlot sl v s).pc = s.pc) ∧
    (sl ≠ .reg .sp → (writeSlot sl v s).sp = s.sp) ∧
    (sl ≠ .reg .o → (writeSlot sl v s).o = s.o) ∧
    (∀ addr : Word, sl ≠ .mem addr → (writeSlot sl v s).memRead addr = s.memRead addr) ∧
    (writeSlot sl v s).phase = s.phase ∧ (writeSlot sl v s).cfg = s.cfg ∧ (writeSlot sl v s).cyc = s.cyc := by
  cases sl with
  | reg r =>
    cases r with
    | gen q =>
      refine ⟨fun r h => ?_, fun _ => rfl, fun _ => rfl, fun _ => rfl, fun _ _ => rfl, rfl, rfl, rfl⟩
      exact State.reg_setReg_of_ne s (fun e => h (by rw [e])) v
    | sp => simp [writeSlot, State.writeReg]
    | pc => simp [writeSlot, State.writeReg]
    | o => simp [writeSlot, State.writeReg]
  | mem k =>
    refine ⟨fun _ _ => rfl, fun _ => rfl, fun _ => rfl, fun _ => rfl, fun q h => ?_, rfl, rfl, rfl⟩
    exact State.memRead_memWrite_of_ne s (fun e => h (by rw [e])) v
  | imm u => simp [writeSlot]

/-- A write through a slot keeps memory in canonical form. -/
theorem wf_writeSlot {s : State} (h : Memory.wf s.mem = true) (sl : Slot) (v : Word) :
    Memory.wf (writeSlot sl v s).mem = true := by
  cases sl with
  | reg r => cases r <;> exact h
  | mem k => exact State.wf_memWrite h k v
  | imm u => exact h

end Sys2Proof.Machine
end

