-- ==== Sys2Proof/Laws/Exec.lean ====
section
/-! SUPPORT. What each shape of instruction can do: one lemma per shared operation. -/

namespace Sys2Proof.Machine

/-- A basic instruction that does not write O completes, with this effect and this frame. -/
theorem runPlain_spec (base : Nat) (f : Word → Word → Word) (a b : Operand) (s : State) :
    ∃ t, runPlain base f a b s = .next t ∧ WritesPlain (f (valueA a b s) (valueB a b s)) base a b s t := by
  refine ⟨_, rfl, ?_⟩
  obtain ⟨h1, h2, h3, h4, h5, h6, h7, h8⟩ :=
    writeSlot_frame (slotA a s) (f (valueA a b s) (valueB a b s)) (resolved a b s)
  have hs := slotHolds_writeSlot (slotA a s) (f (valueA a b s) (valueB a b s)) (resolved a b s)
  refine ⟨?_, ?_, ?_, ?_, ?_, ?_, ?_, ?_, ?_⟩
  · revert hs; cases slotA a s with
    | reg r => cases r <;> exact id
    | mem k => exact id
    | imm u => exact id
  · intro h; simpa [resolved_eq] using h4 h
  · simp only [State.charge_cyc, h7, h8, basicCost]; simp [resolved_eq]; omega
  · intro r h; simpa [resolved_eq] using h1 r h
  · intro h; simpa [resolved_eq] using h2 h
  · intro h; simpa [resolved_eq] using h3 h
  · intro k h; simpa [resolved_eq] using h5 k h
  · simpa [resolved_eq] using h6
  · simpa [resolved_eq] using h7

/-- A basic instruction that writes O completes, with this effect and this frame. -/
theorem runWithO_spec (base : Nat) (f g : Word → Word → Word) (a b : Operand) (s : State) :
    ∃ t, runWithO base f g a b s = .next t ∧
      WritesWithO (f (valueA a b s) (valueB a b s)) (g (valueA a b s) (valueB a b s)) base a b s t := by
  refine ⟨_, rfl, ?_⟩
  obtain ⟨h1, h2, h3, _, h5, h6, h7, h8⟩ :=
    writeSlot_frame (slotA a s) (f (valueA a b s) (valueB a b s)) (resolved a b s)
  have hs := slotHolds_writeSlot (slotA a s) (f (valueA a b s) (valueB a b s)) (resolved a b s)
  refine ⟨?_, rfl, ?_, ?_, ?_, ?_, ?_, ?_, ?_⟩
  · intro hne
    revert hs hne; cases slotA a s with
    | reg r => cases r <;> first | (intro h _; exact h) | (intro _ h; exact absurd rfl h)
    | mem k => intro h _; exact h
    | imm u => intro h _; exact h
  · simp only [State.charge_cyc, State.setO_cyc, State.setO_cfg, h7, h8, basicCost]; simp [resolved_eq]; omega
  · intro r h; simpa [resolved_eq] using h1 r h
  · intro h; simpa [resolved_eq] using h2 h
  · intro h; simpa [resolved_eq] using h3 h
  · intro k h; simpa [resolved_eq] using h5 k h
  · simpa [resolved_eq] using h6
  · simpa [resolved_eq] using h7

/-- A conditional completes, whatever follows it, with this effect and this frame. -/
theorem runCond_spec (test : Word → Word → Bool) (a b : Operand) (s : State) :
    ∃ t, runCond test a b s = .next t ∧
      CondOutcome (test (valueA a b s) (valueB a b s) = true) a b s t := by
  unfold runCond
  cases hc : test (valueA a b s) (valueB a b s)
  · refine ⟨_, rfl, fun h => absurd h (by simp), fun _ => ⟨?_, ?_⟩, ?_⟩
    · simp only [State.skip, State.charge_pc, State.advancePc_pc, trunc16_add_nat]
      simp [resolved_eq, followingAddr]
    · simp [State.skip, resolved_eq, basicCost]; omega
    · simp [CondFrame, State.skip, resolved_eq]
  · refine ⟨_, rfl, fun _ => ⟨?_, ?_⟩, fun h => absurd rfl h, ?_⟩
    · simp [resolved_eq, followingAddr]
    · simp [resolved_eq, basicCost]; omega
    · simp [CondFrame, resolved_eq]

/-- The shared shapes keep memory in canonical form. -/
theorem wf_runPlain {s t : State} {base : Nat} {f : Word → Word → Word} {a b : Operand}
    (h : Memory.wf s.mem = true) (ht : runPlain base f a b s = .next t) : Memory.wf t.mem = true := by
  cases ht
  exact wf_writeSlot (s := resolved a b s) (by rw [resolved_eq]; exact h) (slotA a s) _

theorem wf_runWithO {s t : State} {base : Nat} {f g : Word → Word → Word} {a b : Operand}
    (h : Memory.wf s.mem = true) (ht : runWithO base f g a b s = .next t) : Memory.wf t.mem = true := by
  cases ht
  exact wf_writeSlot (s := resolved a b s) (by rw [resolved_eq]; exact h) (slotA a s) _

theorem wf_runCond {s t : State} {test : Word → Word → Bool} {a b : Operand}
    (h : Memory.wf s.mem = true) (ht : runCond test a b s = .next t) : Memory.wf t.mem = true := by
  obtain ⟨u, hu, -, -, -, -, hm, -⟩ := runCond_spec test a b s
  rw [hu] at ht; cases ht
  rw [hm]; exact h

/-- A push stores below the old SP and moves SP there. -/
theorem pushWord_spec (s : State) (v : Word) :
    (s.pushWord v).sp = s.sp - 1 ∧ (s.pushWord v).memRead (s.sp - 1) = v ∧
    (∀ k, k ≠ s.sp - 1 → (s.pushWord v).memRead k = s.memRead k) ∧
    (s.pushWord v).regs = s.regs ∧ (s.pushWord v).pc = s.pc ∧ (s.pushWord v).o = s.o ∧
    (s.pushWord v).cyc = s.cyc ∧ (s.pushWord v).phase = s.phase ∧ (s.pushWord v).cfg = s.cfg := by
  simp only [State.pushWord, truncInt16_sub_one]
  refine ⟨rfl, ?_, fun k hk => ?_, rfl, rfl, rfl, rfl, rfl, rfl⟩
  · simp
  · exact State.memRead_memWrite_of_ne (s.setSp (s.sp - 1)) hk v

end Sys2Proof.Machine
end

