-- ==== Sys2Proof/Laws/PerInstr.lean ====
section
/-! SUPPORT. One family of statements made per instruction: how many words it is (spec 30_encoding.md R70). -/

namespace Sys2Proof.Laws.WordCount

/-- An instruction is 1, 2 or 3 words long (R70). -/
def Statement (i : Instr) : Prop := ∀ cfg : Config, 1 ≤ (encode cfg i).length ∧ (encode cfg i).length ≤ 3

theorem encodeBasic_length (op : Nat) (a b : Operand) :
    1 ≤ (encodeBasic op a b).length ∧ (encodeBasic op a b).length ≤ 3 := by
  have ha : a.extWords.length ≤ 1 := a.ext_le
  have hb : b.extWords.length ≤ 1 := b.ext_le
  simp only [encodeBasic, List.length_cons, List.length_append]
  omega

theorem set (a b : Operand) : Statement (.set a b) := fun _ => encodeBasic_length _ a b
theorem add (a b : Operand) : Statement (.add a b) := fun _ => encodeBasic_length _ a b
theorem sub (a b : Operand) : Statement (.sub a b) := fun _ => encodeBasic_length _ a b
theorem mul (a b : Operand) : Statement (.mul a b) := fun _ => encodeBasic_length _ a b
theorem div (a b : Operand) : Statement (.div a b) := fun _ => encodeBasic_length _ a b
theorem mod (a b : Operand) : Statement (.mod a b) := fun _ => encodeBasic_length _ a b
theorem shl (a b : Operand) : Statement (.shl a b) := fun _ => encodeBasic_length _ a b
theorem shr (a b : Operand) : Statement (.shr a b) := fun _ => encodeBasic_length _ a b
theorem and (a b : Operand) : Statement (.and a b) := fun _ => encodeBasic_length _ a b
theorem or (a b : Operand) : Statement (.or a b) := fun _ => encodeBasic_length _ a b
theorem xor (a b : Operand) : Statement (.xor a b) := fun _ => encodeBasic_length _ a b
theorem ife (a b : Operand) : Statement (.ife a b) := fun _ => encodeBasic_length _ a b
theorem ifn (a b : Operand) : Statement (.ifn a b) := fun _ => encodeBasic_length _ a b
theorem ifg (a b : Operand) : Statement (.ifg a b) := fun _ => encodeBasic_length _ a b
theorem ifb (a b : Operand) : Statement (.ifb a b) := fun _ => encodeBasic_length _ a b
theorem hlt (field : Nat) : Statement (.hlt field) := fun _ => ⟨Nat.le_refl 1, by simp [encode]⟩
theorem jsr (a : Operand) : Statement (.jsr a) := fun cfg => by
  have ha : a.extWords.length ≤ 1 := a.ext_le
  simp only [encode, List.length_cons]
  omega

end Sys2Proof.Laws.WordCount
end

