-- ==== Sys2Proof/Laws/Step.lean ====
section
/-! SUPPORT. The fetch, the reserved opcodes, and `exec` as the shared shape of each instruction. -/

namespace Sys2Proof.Machine

/-- What the fetch reads and where it leaves PC, in word arithmetic. -/
theorem fetch_eq (s : State) :
    fetch s =
      (decode s.cfg (s.memRead s.pc) (s.memRead (s.pc + 1)) (s.memRead (s.pc + 2)), s.setPc (s.pc + 1)) := by
  simp only [fetch, State.advancePc]
  rw [trunc16_add_nat, trunc16_add_nat]
  rfl

/-- Everything a reserved non-basic word can do (R210). -/
theorem execReserved_cases (w : Word) (s : State) :
    (s.cfg.nonbasicReserved = .fault ∧ execReserved w s = .fault (.illegalInstruction w)) ∨
    (s.cfg.nonbasicReserved = .nop ∧ ∃ a, decodeOperand (topField w) (s.memRead s.pc) = some a ∧
      execReserved w s = .next ((resolve a s).2.charge a.ext)) := by
  unfold execReserved
  cases s.cfg.nonbasicReserved with
  | fault => exact .inl ⟨rfl, rfl⟩
  | nop =>
    obtain ⟨a, ha⟩ := decodeOperand_total (topField_le w) (s.memRead s.pc)
    exact .inr ⟨rfl, a, ha, by simp [ha]⟩

section
variable (a b : Operand) (s : State)

theorem exec_set : exec (.set a b) s = runPlain 1 (fun _ vb => vb) a b s := rfl
theorem exec_add : exec (.add a b) s = runWithO 2 addResult addO a b s := rfl
theorem exec_sub : exec (.sub a b) s = runWithO 2 subResult subO a b s := rfl
theorem exec_mul : exec (.mul a b) s = runWithO 2 mulResult mulO a b s := rfl
theorem exec_div : exec (.div a b) s = runWithO 3 divResult (divO s.cfg.divOMode) a b s := rfl
theorem exec_mod : exec (.mod a b) s = runPlain 3 modResult a b s := rfl
theorem exec_shl :
    exec (.shl a b) s = runWithO 2 (shlResult s.cfg.shiftCountMode) (shlO s.cfg.shiftCountMode) a b s := rfl
theorem exec_shr :
    exec (.shr a b) s = runWithO 2 (shrResult s.cfg.shiftCountMode) (shrO s.cfg.shiftCountMode) a b s := rfl
theorem exec_and : exec (.and a b) s = runPlain 1 (fun va vb => va &&& vb) a b s := rfl
theorem exec_or : exec (.or a b) s = runPlain 1 (fun va vb => va ||| vb) a b s := rfl
theorem exec_xor : exec (.xor a b) s = runPlain 1 (fun va vb => va ^^^ vb) a b s := rfl
theorem exec_ife : exec (.ife a b) s = runCond (fun va vb => decide (va = vb)) a b s := rfl
theorem exec_ifn : exec (.ifn a b) s = runCond (fun va vb => decide (va ≠ vb)) a b s := rfl
theorem exec_ifg : exec (.ifg a b) s = runCond (fun va vb => decide (va.toNat > vb.toNat)) a b s := rfl
theorem exec_ifb : exec (.ifb a b) s = runCond (fun va vb => decide (va &&& vb ≠ 0)) a b s := rfl

end

end Sys2Proof.Machine
end

