-- ==== Sys2Proof/Tests/Slice0.lean ====
section
/-! SUPPORT. Tests. Every expected result comes from the spec: the encodings of 30_encoding.md and the vectors of
95_test_vectors.md, whose section a test's comment names. The witnesses show that the hypotheses of the statements
can be met. -/

namespace Sys2Proof.Tests

open Sys2Proof.Machine

/-! ## Well-formedness: an ill-formed term for each check -/

theorem test_wf_literal_32_refused : (Operand.lit 32).wf = false := by decide
theorem test_wf_operandA_refused : (Instr.add (.lit 32) (.reg .A)).wf = false := by decide
theorem test_wf_operandB_refused : (Instr.ifb (.reg .A) (.lit 40)).wf = false := by decide
theorem test_wf_jsr_operand_refused : (Instr.jsr (.lit 32)).wf = false := by decide
theorem test_wf_hlt_field_64_refused : (Instr.hlt 64).wf = false := by decide
theorem test_wf_jsrOpcode_0_refused : { Config.default with jsrOpcode := 0 }.wf = false := by decide
theorem test_wf_jsrOpcode_64_refused : { Config.default with jsrOpcode := 64 }.wf = false := by decide
theorem test_wf_accepts : (Instr.add (.lit 31) (.reg .A)).wf = true ∧ (Instr.hlt 63).wf = true ∧ Config.default.wf = true := by
  decide

/-! ## Decoding: one word for each constructor, its bits written as the table's `bbbbbb aaaaaa oooo` (R72, R73) -/

/-- The instruction a word decodes to, with the default parameters. -/
def dec (w : Word) (x y : Word := 0) : Option Instr :=
  match decode Config.default w x y with
  | .ok i    => some i
  | .error _ => none

theorem test_decode_set : dec 0b000001_000000_0001 = some (.set (.reg .A) (.reg .B)) := by decide
theorem test_decode_add : dec 0b110000_000000_0010 = some (.add (.reg .A) (.lit 16)) := by decide
theorem test_decode_sub : dec 0b100001_000110_0011 = some (.sub (.reg .I) (.lit 1)) := by decide
theorem test_decode_mul : dec 0b011111_011111_0100 0xFFFF 0x1234 = some (.mul (.nextLit 0xFFFF) (.nextLit 0x1234)) := by decide
theorem test_decode_div : dec 0b100000_011101_0101 = some (.div .o (.lit 0)) := by decide
theorem test_decode_mod : dec 0b000111_001111_0110 = some (.mod (.ind .J) (.reg .J)) := by decide
theorem test_decode_shl : dec 0b101000_010110_0111 0x1000 = some (.shl (.idx 0x1000 .I) (.lit 8)) := by decide
theorem test_decode_shr : dec 0b100100_000001_1000 = some (.shr (.reg .B) (.lit 4)) := by decide
theorem test_decode_and : dec 0b100011_100101_1001 = some (.and (.lit 5) (.lit 3)) := by decide
theorem test_decode_or : dec 0b010111_001000_1010 0xBEEF = some (.or (.ind .A) (.idx 0xBEEF .J)) := by decide
theorem test_decode_xor : dec 0b011001_011010_1011 = some (.xor .push .peek) := by decide
theorem test_decode_ife : dec 0b011000_011000_1100 = some (.ife .pop .pop) := by decide
theorem test_decode_ifn : dec 0b011110_011100_1101 0x2000 = some (.ifn .pc (.nextInd 0x2000)) := by decide
theorem test_decode_ifg : dec 0b000110_100100_1110 = some (.ifg (.lit 4) (.reg .I)) := by decide
theorem test_decode_ifb : dec 0b111111_011011_1111 = some (.ifb .sp (.lit 31)) := by decide
theorem test_decode_hlt : dec 0b111111_000000_0000 = some (.hlt 0x3F) := by decide
theorem test_decode_jsr : dec 0b011111_000001_0000 0x0003 = some (.jsr (.nextLit 0x0003)) := by decide
theorem test_decode_reserved : decode Config.default 0b000000_000010_0000 0 0 = .error (.reservedNonBasic 0x0020) := by decide
theorem test_encode_two_extension_words :
    encode Config.default (.set (.nextInd 0x1000) (.nextLit 0x0020)) = [0x7DE1, 0x1000, 0x0020] := by decide

/-! ## One step. Each state is a mount of the words at address 0 with changes on top -/

/-- The mount of a short image. -/
def mounted (ws : List Word) : State := { State.reset with mem := Memory.ofImage 0 ws }

/-- What one step leaves in the fields a test looks at. -/
def after {α : Type} (s : State) (look : State → α) : Option α :=
  match step s with
  | .next t    => some (look t)
  | .fault _   => none
  | .refused _ => none

/-- Section 2.1: SET [2+A], [3+B]. -/
theorem test_set_two_extension_words :
    after ((((mounted [0x4501, 2, 3]).setReg .A 0x1000).setReg .B 0x2000).memWrite 0x2003 0x5A5A)
      (fun t => (t.memRead 0x1002, t.pc, t.cyc)) = some (0x5A5A, 3, 3) := by decide

/-- Section 2.2: SET SP, POP. -/
theorem test_set_sp_pop :
    after (((mounted [0x61B1]).setSp 0xFFF0).memWrite 0xFFF0 0x00F0) (fun t => (t.sp, t.cyc)) = some (0x00F0, 1) := by decide

/-- Section 2.3. -/
theorem test_add_carry :
    after (((mounted [0x0402]).setReg .A 0xFFFF).setReg .B 0xFFFF) (fun t => (t.reg .A, t.o, t.cyc)) =
      some (0xFFFE, 1, 2) := by decide

/-- Section 2.4: ADD O, 1. -/
theorem test_add_into_o : after ((mounted [0x85D2]).setO 0x0005) (fun t => t.o) = some 0 := by decide

/-- Section 2.3. -/
theorem test_sub_borrow :
    after (((mounted [0x0403]).setReg .A 0x0010).setReg .B 0x0030) (fun t => (t.reg .A, t.o)) = some (0xFFE0, 0xFFFF) := by
  decide

/-- Section 2.4: SUB 0, 1. -/
theorem test_sub_immediate_destination :
    after ((mounted [0x8603]).setO 0x7777) (fun t => (t.regs, t.o, t.pc)) = some (State.reset.regs, 0xFFFF, 1) := by decide

/-- Section 2.3. -/
theorem test_mul_high_half :
    after (((mounted [0x0404]).setReg .A 0x1234).setReg .B 0x5678) (fun t => (t.reg .A, t.o)) = some (0x0060, 0x0626) := by
  decide

/-- Section 2.5, row 0060 / 0007. -/
theorem test_div_quotient_mode :
    after (((mounted [0x0405]).setReg .A 0x0060).setReg .B 7) (fun t => (t.reg .A, t.o, t.cyc)) = some (0x000D, 0xDB6D, 3) := by
  decide

theorem test_div_dividend_mode :
    after { ((mounted [0x0405]).setReg .A 0x0060).setReg .B 7 with cfg := { Config.default with divOMode := .dividend } }
      (fun t => (t.reg .A, t.o)) = some (0x000D, 0xB6DB) := by decide

/-- Section 2.5. -/
theorem test_mod_leaves_o :
    after ((((mounted [0x0406]).setReg .A 0x0064).setReg .B 7).setO 5) (fun t => (t.reg .A, t.o, t.cyc)) = some (2, 5, 3) := by
  decide

theorem test_mod_zero_divisor :
    after ((mounted [0x0406]).setReg .A 0xFFFF) (fun t => (t.reg .A, t.cyc)) = some (0, 3) := by decide

/-- Section 2.6. -/
theorem test_shl_by_20 :
    after (((mounted [0x0407]).setReg .A 0x1234).setReg .B 20) (fun t => (t.reg .A, t.o)) = some (0, 0x2340) := by decide

theorem test_shl_mask5_by_33 :
    after { ((mounted [0x0407]).setReg .A 0x1234).setReg .B 33 with cfg := { Config.default with shiftCountMode := .mask5 } }
      (fun t => (t.reg .A, t.o)) = some (0x2468, 0) := by decide

theorem test_shr_by_1 :
    after (((mounted [0x0408]).setReg .A 0x8001).setReg .B 1) (fun t => (t.reg .A, t.o)) = some (0x4000, 0x8000) := by decide

theorem test_shr_by_33 :
    after (((mounted [0x0408]).setReg .A 0x1234).setReg .B 33) (fun t => (t.reg .A, t.o)) = some (0, 0) := by decide

/-- Section 2.7. -/
theorem test_and :
    after ((((mounted [0x0409]).setReg .A 0xF0F0).setReg .B 0x0FF0).setO 5) (fun t => (t.reg .A, t.o, t.cyc)) =
      some (0x00F0, 5, 1) := by decide

theorem test_or :
    after (((mounted [0x040A]).setReg .A 0xF0F0).setReg .B 0x0FF0) (fun t => (t.reg .A, t.cyc)) = some (0xFFF0, 1) := by decide

theorem test_xor :
    after (((mounted [0x040B]).setReg .A 0xF0F0).setReg .B 0x0FF0) (fun t => (t.reg .A, t.cyc)) = some (0xFF00, 1) := by decide

/-- Section 2.8: IFE A, 1 false before a three-word SET. -/
theorem test_ife_skips_three_words :
    after (mounted [0x840C, 0x7DE1, 0x1000, 0x0020]) (fun t => (t.pc, t.cyc, t.mem)) =
      some (4, 3, (mounted [0x840C, 0x7DE1, 0x1000, 0x0020]).mem) := by decide

/-- Section 2.8: IFE POP, POP false keeps its own side effects. -/
theorem test_ife_pop_pop :
    after ((((mounted [0x618C, 0x8401]).setSp 0xFFF0).memWrite 0xFFF0 1).memWrite 0xFFF1 2) (fun t => (t.sp, t.pc, t.cyc)) =
      some (0xFFF2, 2, 3) := by decide

theorem test_ifn_true :
    after (((mounted [0x040D, 0x8421]).setReg .A 5).setReg .B 6) (fun t => (t.pc, t.cyc)) = some (1, 2) := by decide

theorem test_ifn_false_skips_reserved_word :
    after (mounted [0x040D, 0x7DF0, 0xBEEF]) (fun t => (t.pc, t.cyc)) = some (3, 3) := by decide

/-- Section 2.8: the row 8000, 7FFF is true only if the comparison is unsigned. -/
theorem test_ifg_unsigned :
    after (((mounted [0x040E, 0x8421]).setReg .A 0x8000).setReg .B 0x7FFF) (fun t => (t.pc, t.cyc)) = some (1, 2) := by decide

theorem test_ifg_equal_is_false :
    after (((mounted [0x040E, 0x7C00]).setReg .A 5).setReg .B 5) (fun t => (t.pc, t.phase)) = some (3, .run) := by decide

theorem test_ifb_true :
    after (((mounted [0x040F, 0x8421]).setReg .A 0x00F0).setReg .B 0x0010) (fun t => (t.pc, t.cyc)) = some (1, 2) := by decide

theorem test_ifb_false :
    after (((mounted [0x040F, 0x61A1]).setReg .A 0x00F0).setReg .B 0x000F) (fun t => (t.pc, t.sp)) = some (2, 0xFFFF) := by decide

/-- Section 2.9. -/
theorem test_hlt_ignores_its_field :
    after (mounted [0x7C00, 0xBEEF]) (fun t => (t.phase, t.pc, t.cyc)) = some (.halted, 1, 0) := by decide

theorem test_hlt_does_not_pop :
    after (mounted [0x6000]) (fun t => (t.phase, t.sp)) = some (.halted, 0xFFFF) := by decide

theorem test_jsr_next_word :
    after (mounted [0x7C10, 0x0003]) (fun t => (t.pc, t.sp, t.memRead 0xFFFE, t.cyc)) = some (3, 0xFFFE, 2, 3) := by decide

theorem test_jsr_pop :
    after (((mounted [0x6010]).setSp 0x8000).memWrite 0x8000 0x0200) (fun t => (t.pc, t.sp, t.memRead 0x8000)) =
      some (1, 0x8000, 1) := by decide

theorem test_reserved_faults : step (mounted [0x0020]) = .fault (.illegalInstruction 0x0020) := by rfl

theorem test_reserved_nop :
    after { mounted [0x0020] with cfg := { Config.default with nonbasicReserved := .nop } } (fun t => (t.pc, t.cyc, t.phase)) =
      some (1, 0, .run) := by decide

/-- P5: the host's own entry points run a table word as the first instruction after reset. -/
theorem test_withFetchWord :
    after (State.reset.withFetchWord 16 0x8C01) (fun t => (t.reg .A, t.pc)) = some (3, 1) ∧
    decodeTableWord 16 0x8C01 = some (.set (.reg .A) (.lit 3)) := by decide

/-! ## Witnesses: the hypotheses of the statements can be met, clause by clause -/

theorem witness_mount_fits : (List.replicate 65536 (1 : Word)).length ≤ 65536 :=
  Nat.le_of_eq List.length_replicate
theorem witness_mount_too_long : 65536 < (List.replicate 65537 (1 : Word)).length := by
  rw [List.length_replicate]; exact Nat.lt_succ_self _
theorem witness_mount_meets : Config.default.wf = true ∧ mount Config.default [0x8C01] = .next (mounted [0x8C01]) :=
  ⟨rfl, rfl⟩
theorem witness_step_keeps : State.reset.Inv ∧ ∃ t, step State.reset = .next t := ⟨⟨rfl, rfl⟩, _, rfl⟩
theorem witness_slot_written : Slot.mem 5 = Slot.mem 5 ∧ ∀ u, Slot.mem 5 ≠ .imm u := ⟨rfl, by simp⟩
theorem witness_basic_fields : 1 ≤ 15 ∧ 15 ≤ 15 ∧ 63 ≤ 63 := by decide
theorem witness_encode : Config.default.wf = true ∧ (Instr.set (.lit 31) (.idx 0xFFFF .J)).wf = true := by decide
theorem witness_encode_hlt : Config.default.wf = true ∧ (Instr.hlt 63).wf = true := by decide
theorem witness_decode : decode Config.default 0x0401 0 0 = .ok (.set (.reg .A) (.reg .B)) := rfl
theorem witness_register_number : Reg.ofNum 7 = some .J ∧ 31 < 32 := ⟨rfl, by decide⟩
/-- A state whose general registers A and B hold two given words. -/
def withAB (va vb : Word) (cfg : Config) : State := { (State.reset.setReg .A va).setReg .B vb with cfg := cfg }
theorem witness_divisor_zero : valueB (.reg .A) (.reg .B) (withAB 5 0 Config.default) = 0 := by decide
theorem witness_divisor_not_zero_quotient :
    valueB (.reg .A) (.reg .B) (withAB 5 1 Config.default) ≠ 0 ∧ (withAB 5 1 Config.default).cfg.divOMode = .quotient := by decide
theorem witness_divisor_not_zero_dividend :
    let s := withAB 5 0xFFFF { Config.default with divOMode := .dividend }
    valueB (.reg .A) (.reg .B) s ≠ 0 ∧ s.cfg.divOMode = .dividend := by decide
theorem witness_ife_true : valueA (.reg .A) (.reg .B) (withAB 5 5 Config.default) = valueB (.reg .A) (.reg .B) (withAB 5 5 Config.default) := by
  decide
theorem witness_ife_false : ¬ valueA (.reg .A) (.reg .B) (withAB 5 6 Config.default) = valueB (.reg .A) (.reg .B) (withAB 5 6 Config.default) := by
  decide
theorem witness_ifg_true :
    (valueB (.reg .A) (.reg .B) (withAB 6 5 Config.default)).toNat < (valueA (.reg .A) (.reg .B) (withAB 6 5 Config.default)).toNat := by
  decide
theorem witness_ifb_true :
    (valueA (.reg .A) (.reg .B) (withAB 0x8000 0xFFFF Config.default)).getLsbD 15 = true ∧
    (valueB (.reg .A) (.reg .B) (withAB 0x8000 0xFFFF Config.default)).getLsbD 15 = true := by decide
theorem witness_ifb_false :
    ¬ ∃ k : Nat, (valueA (.reg .A) (.reg .B) (withAB 0 0xFFFF Config.default)).getLsbD k = true ∧
      (valueB (.reg .A) (.reg .B) (withAB 0 0xFFFF Config.default)).getLsbD k = true := by
  have h0 : valueA (.reg .A) (.reg .B) (withAB 0 0xFFFF Config.default) = 0 := by decide
  rintro ⟨k, h, -⟩
  rw [h0] at h
  simp at h
theorem witness_immediate_literal : ∃ v, Operand.lit 5 = .lit v := ⟨_, rfl⟩
theorem witness_immediate_next_word : ∃ nw, Operand.nextLit 0x1000 = .nextLit nw := ⟨_, rfl⟩
theorem witness_aliased_registers : slotA (.reg .J) State.reset = slotB (.reg .J) (.reg .J) State.reset ∧
    slotA (.reg .J) State.reset ≠ .reg .o := by decide
theorem witness_aliased_memory : slotA (.ind .A) State.reset = slotB (.ind .A) (.ind .B) State.reset ∧
    slotA (.ind .A) State.reset ≠ .reg .o := by decide
theorem witness_push_then_pop :
    spMove (.reg .A) = 0 ∧ ∃ t, exec (.set .push (.reg .A)) State.reset = .next t := ⟨rfl, _, rfl⟩
theorem witness_hlt_word : (mounted [0xFC00]).phase = .run ∧ (mounted [0xFC00]).memRead 0 &&& 0x03FF = 0 := by decide
theorem witness_return :
    let s := mounted [0x7C10, 0x0003, 0x0000, 0x61C1]
    ∃ t, (s.setPc 1).phase = .run ∧ exec (.jsr (.nextLit 3)) (s.setPc 1) = .next t ∧ t.memRead t.pc = 0x61C1 :=
  ⟨_, rfl, rfl, by decide⟩
theorem witness_reserved_fault :
    (mounted [0x0020]).phase = .run ∧ opField 0x0020 = 0 ∧ midField 0x0020 ≠ 0 ∧
    midField 0x0020 ≠ (mounted [0x0020]).cfg.jsrOpcode ∧ (mounted [0x0020]).cfg.nonbasicReserved = .fault := by decide
theorem witness_reserved_nop :
    let s := { mounted [0xFFF0] with cfg := { Config.default with nonbasicReserved := .nop } }
    s.phase = .run ∧ opField (s.memRead s.pc) = 0 ∧ midField (s.memRead s.pc) ≠ 0 ∧
    midField (s.memRead s.pc) ≠ s.cfg.jsrOpcode ∧ s.cfg.nonbasicReserved = .nop := by decide
theorem witness_step_runs :
    let s := mounted [0x7DE1, 0x1000, 0x0020]
    s.phase = .run ∧ decode s.cfg (s.memRead s.pc) (s.memRead (s.pc + 1)) (s.memRead (s.pc + 2)) =
      .ok (.set (.nextInd 0x1000) (.nextLit 0x0020)) := by decide
theorem witness_stored_words :
    State.reset.phase = .run ∧ State.reset.cfg.wf = true ∧ (Instr.set (.reg .A) (.lit 31)).wf = true := by decide
theorem witness_word_reserved :
    let w : Word := 0xFFF0
    w &&& 0x000F = 0 ∧ (w >>> 4) &&& 0x003F ≠ 0 ∧ ((w >>> 4) &&& 0x003F).toNat ≠ Config.default.jsrOpcode := by decide
theorem witness_word_goes_on :
    let w : Word := 0x0010
    w &&& 0x03FF ≠ 0 ∧ ((w >>> 4) &&& 0x003F).toNat = Config.default.jsrOpcode := by decide
theorem witness_phases :
    (State.reset.setPhase .halted).phase = .halted ∧ (State.reset.setPhase .faulted).phase = .faulted ∧
    State.reset.phase = .run := by decide
theorem witness_cyc_basic : opField 0x0401 ≠ 0 ∧ ∃ t, step (mounted [0x0401]) = .next t := ⟨by decide, _, rfl⟩
theorem witness_cyc_jsr :
    (midField 0x0010 ≠ 0 ∧ midField 0x0010 = (mounted [0x0010]).cfg.jsrOpcode) ∧ ∃ t, step (mounted [0x0010]) = .next t :=
  ⟨by decide, _, rfl⟩
theorem witness_pc_moves :
    (mounted [0x7DEB]).phase = .run ∧ opField 0x7DEB ≠ 0 ∧ opField 0x7DEB < 12 ∧ midField 0x7DEB ≠ 0x1C := by decide
theorem witness_run_succeeds : ∃ t, State.reset.phase = .run ∧ runFor 1 State.reset = .success t ∧ 1 ≤ 1 := ⟨_, rfl, rfl, by decide⟩
theorem witness_run_faults : ∃ f, runFor 1 (mounted [0x0020]) = .runtimeError f := ⟨_, rfl⟩
theorem witness_nop_machine :
    { State.reset with cfg := { Config.default with nonbasicReserved := .nop } }.cfg.nonbasicReserved = .nop := rfl

end Sys2Proof.Tests
end

section
/-! Proofs about the state: the reset state meets the invariant (10_state.md R33), and what a step adds to CYC
(10_state.md R29, 70_reset_and_hazards.md R270). -/

namespace Sys2Proof

/-- The only words the decoder refuses are the reserved non-basic ones: every 6-bit field names an operand (R84). -/
theorem decode_error_inv {cfg : Config} {w x y : Word} {r : DecodeReject} (h : decode cfg w x y = .error r) :
    r = .reservedNonBasic w ∧ opField w = 0 ∧ midField w ≠ 0 ∧ midField w ≠ cfg.jsrOpcode := by
  unfold decode at h
  split at h
  next mk _ =>
    obtain ⟨a, ha⟩ := decodeOperand_total (midField_le w) x
    obtain ⟨b, hb⟩ := decodeOperand_total (topField_le w) (if ext (midField w) = 1 then y else x)
    simp [decodeBasic, ha, hb] at h
  next hn =>
    obtain ⟨a, ha⟩ := decodeOperand_total (topField_le w) x
    by_cases hm : midField w = 0
    · simp [decodeNonBasic, hm] at h
    by_cases hj : midField w = cfg.jsrOpcode
    · simp [decodeNonBasic, ← hj, hm, ha] at h
    simp only [decodeNonBasic, hm, hj, if_false, Except.error.injEq] at h
    exact ⟨h.symm, basicOf_eq_none (opField_le w) hn, hm, hj⟩

end Sys2Proof

namespace Sys2Proof.Machine

/-! ## What a step can be -/

/-- Everything a step that answers a next state can be, by the word `w` at PC: HLT, JSR, a basic instruction, or a
reserved non-basic word with `NONBASIC_RESERVED = NOP`. -/
theorem step_next_inv {s t : State} {w : Word} (hw : s.memRead s.pc = w) (h : step s = .next t) :
    s.phase = .run ∧
    ((opField w = 0 ∧ midField w = 0 ∧ t = (s.setPc (s.pc + 1)).setPhase .halted) ∨
     (opField w = 0 ∧ midField w ≠ 0 ∧ midField w = s.cfg.jsrOpcode ∧
      ∃ a, decodeOperand (topField w) (s.memRead (s.pc + 1)) = some a ∧
        execJsr a (s.setPc (s.pc + 1)) = .next t) ∨
     (∃ mk a b, basicOf (opField w) = some mk ∧
        decode s.cfg w (s.memRead (s.pc + 1)) (s.memRead (s.pc + 2)) = .ok (mk a b) ∧
        exec (mk a b) (s.setPc (s.pc + 1)) = .next t) ∨
     (opField w = 0 ∧ midField w ≠ 0 ∧ midField w ≠ s.cfg.jsrOpcode ∧ s.cfg.nonbasicReserved = .nop ∧
      ∃ a, decodeOperand (topField w) (s.memRead (s.pc + 1)) = some a ∧
        t = (resolve a (s.setPc (s.pc + 1))).2.charge a.ext)) := by
  unfold step at h
  cases hp : s.phase with
  | halted => simp only [hp, reduceCtorEq] at h
  | faulted => simp only [hp, reduceCtorEq] at h
  | run =>
    refine ⟨rfl, ?_⟩
    simp only [hp, fetch_eq, hw] at h
    cases hd : decode s.cfg w (s.memRead (s.pc + 1)) (s.memRead (s.pc + 2)) with
    | ok i =>
      simp only [hd] at h
      rcases decode_ok_inv hd with ⟨h0, hm, rfl⟩ | ⟨h0, hm, hj, a, rfl, ha⟩ | ⟨mk, a, b, hmk, rfl, -, -⟩
      · cases h; exact .inl ⟨h0, hm, rfl⟩
      · exact .inr (.inl ⟨h0, hm, hj, a, ha, h⟩)
      · exact .inr (.inr (.inl ⟨mk, a, b, hmk, rfl, h⟩))
    | error r =>
      simp only [hd] at h
      obtain ⟨rfl, h0, hm, hj⟩ := decode_error_inv hd
      rcases execReserved_cases w (s.setPc (s.pc + 1)) with ⟨-, hfault⟩ | ⟨hnop, a, ha, hnext⟩
      · simp only [execReject, hfault, reduceCtorEq] at h
      · simp only [execReject, hnext, Host.Outcome.next.injEq] at h
        exact .inr (.inr (.inr ⟨h0, hm, hj, hnop, a, ha, h.symm⟩))

/-- Every basic instruction has one of the three shared shapes, with a base cost of 1 to 3 (R270). -/
theorem exec_basic_shape {op : Nat} {mk : Operand → Operand → Instr} (h : basicOf op = some mk)
    (a b : Operand) (s : State) :
    (∃ base f, 1 ≤ base ∧ base ≤ 3 ∧ exec (mk a b) s = runPlain base f a b s) ∨
    (∃ base f g, 1 ≤ base ∧ base ≤ 3 ∧ exec (mk a b) s = runWithO base f g a b s) ∨
    (∃ test, exec (mk a b) s = runCond test a b s) := by
  unfold basicOf at h
  split at h <;> cases h
  · exact .inl ⟨1, _, by decide, by decide, exec_set a b s⟩
  · exact .inr (.inl ⟨2, _, _, by decide, by decide, exec_add a b s⟩)
  · exact .inr (.inl ⟨2, _, _, by decide, by decide, exec_sub a b s⟩)
  · exact .inr (.inl ⟨2, _, _, by decide, by decide, exec_mul a b s⟩)
  · exact .inr (.inl ⟨3, _, _, by decide, by decide, exec_div a b s⟩)
  · exact .inl ⟨3, _, by decide, by decide, exec_mod a b s⟩
  · exact .inr (.inl ⟨2, _, _, by decide, by decide, exec_shl a b s⟩)
  · exact .inr (.inl ⟨2, _, _, by decide, by decide, exec_shr a b s⟩)
  · exact .inl ⟨1, _, by decide, by decide, exec_and a b s⟩
  · exact .inl ⟨1, _, by decide, by decide, exec_or a b s⟩
  · exact .inl ⟨1, _, by decide, by decide, exec_xor a b s⟩
  · exact .inr (.inr ⟨_, exec_ife a b s⟩)
  · exact .inr (.inr ⟨_, exec_ifn a b s⟩)
  · exact .inr (.inr ⟨_, exec_ifg a b s⟩)
  · exact .inr (.inr ⟨_, exec_ifb a b s⟩)

/-! ## What each shape adds to CYC -/

theorem runPlain_cyc {base : Nat} {f : Word → Word → Word} {a b : Operand} {s t : State}
    (h : runPlain base f a b s = .next t) : t.cyc = s.cyc + s.cfg.fetchCost + base + a.ext + b.ext := by
  obtain ⟨u, hu, -, -, hcyc, -⟩ := runPlain_spec base f a b s
  rw [hu] at h; cases h
  exact hcyc

theorem runWithO_cyc {base : Nat} {f g : Word → Word → Word} {a b : Operand} {s t : State}
    (h : runWithO base f g a b s = .next t) : t.cyc = s.cyc + s.cfg.fetchCost + base + a.ext + b.ext := by
  obtain ⟨u, hu, -, -, hcyc, -⟩ := runWithO_spec base f g a b s
  rw [hu] at h; cases h
  exact hcyc

/-- A conditional costs 2, and 1 more when it skips (R186). -/
theorem runCond_cyc {test : Word → Word → Bool} {a b : Operand} {s t : State} (h : runCond test a b s = .next t) :
    t.cyc = s.cyc + s.cfg.fetchCost + 2 + a.ext + b.ext ∨ t.cyc = s.cyc + s.cfg.fetchCost + 3 + a.ext + b.ext := by
  obtain ⟨u, hu, htrue, hfalse, -⟩ := runCond_spec test a b s
  rw [hu] at h; cases h
  by_cases hc : test (valueA a b s) (valueB a b s) = true
  · exact .inl (htrue hc).2
  · exact .inr (hfalse hc).2

theorem execJsr_cyc {a : Operand} {s t : State} (h : execJsr a s = .next t) :
    t.cyc = s.cyc + s.cfg.fetchCost + 2 + a.ext := by
  cases h
  obtain ⟨-, -, -, -, -, -, hcyc, -, hcfg⟩ := pushWord_spec (resolve a s).2 (resolve a s).2.pc
  simp only [State.charge_cyc, State.setPc_cyc, State.setPc_cfg, hcyc, hcfg]
  simp [resolve_state]
  omega

/-- A basic instruction adds 1 to 5 beyond `FETCH_COST`: 1 is SET with no extension word, 5 is DIV or a failed
conditional with two (R270). -/
theorem exec_basic_cyc {op : Nat} {mk : Operand → Operand → Instr} (hmk : basicOf op = some mk) {a b : Operand}
    {s t : State} (h : exec (mk a b) s = .next t) :
    s.cyc + s.cfg.fetchCost + 1 ≤ t.cyc ∧ t.cyc ≤ s.cyc + s.cfg.fetchCost + 5 := by
  have ha := a.ext_le
  have hb := b.ext_le
  rcases exec_basic_shape hmk a b s with ⟨base, f, h1, h3, he⟩ | ⟨base, f, g, h1, h3, he⟩ | ⟨test, he⟩
  · have := runPlain_cyc (he ▸ h); omega
  · have := runWithO_cyc (he ▸ h); omega
  · have := runCond_cyc (he ▸ h); omega

/-! ## The obligations -/

/-- Settles O4: no word is listed, and the default `JSR_OPCODE` is 1. -/
theorem resetMeetsTheInvariant : Obligations.ResetMeetsTheInvariant := by
  have hmem : Memory.wf State.reset.mem = true := rfl
  have hcfg : State.reset.cfg.wf = true := by decide
  exact ⟨hmem, hcfg⟩

/-- Settles O41, by the cases of a step: HLT adds nothing, a reserved word at least `FETCH_COST`, and the two kinds
of word the bounds speak of are the other two cases. -/
theorem cycNeverDecreases : Obligations.CycNeverDecreases := by
  intro s t h w
  rcases (step_next_inv rfl h).2 with ⟨h0, hm, rfl⟩ | ⟨-, -, -, a, -, hx⟩ | ⟨mk, a, b, hmk, -, hx⟩ |
    ⟨h0, -, hj, -, a, -, rfl⟩
  · exact ⟨Nat.le_refl s.cyc, fun hw => absurd hw (by simp [w, h0, hm])⟩
  · have hcyc := execJsr_cyc hx
    have ha := a.ext_le
    simp only [State.setPc_cyc, State.setPc_cfg] at hcyc
    exact ⟨by omega, fun _ => by omega⟩
  · have hcyc := exec_basic_cyc hmk hx
    simp only [State.setPc_cyc, State.setPc_cfg] at hcyc
    exact ⟨by omega, fun _ => hcyc⟩
  · exact ⟨by simp [resolve_state], fun hw => absurd hw (by simp [w, h0, hj])⟩

end Sys2Proof.Machine
end

section
/-! Proofs about memory: what a write and a stored run of words leave at every address (20_memory.md R50, R60), an
encoded instruction read back (30_encoding.md R70 to R79), and the invariant kept by every step. -/

namespace Sys2Proof

/-! ## An encoded instruction read back -/

/-- Every instruction is HLT, JSR or a row of the basic opcode map (R71, R77, R78). -/
theorem Instr.hlt_or_jsr_or_basic (i : Instr) :
    (∃ field, i = .hlt field) ∨ (∃ a, i = .jsr a) ∨ ∃ op mk a b, basicOf op = some mk ∧ i = mk a b := by
  cases i with
  | hlt field => exact .inl ⟨field, rfl⟩
  | jsr a => exact .inr (.inl ⟨a, rfl⟩)
  | set a b => exact .inr (.inr ⟨0x1, _, a, b, rfl, rfl⟩)
  | add a b => exact .inr (.inr ⟨0x2, _, a, b, rfl, rfl⟩)
  | sub a b => exact .inr (.inr ⟨0x3, _, a, b, rfl, rfl⟩)
  | mul a b => exact .inr (.inr ⟨0x4, _, a, b, rfl, rfl⟩)
  | div a b => exact .inr (.inr ⟨0x5, _, a, b, rfl, rfl⟩)
  | mod a b => exact .inr (.inr ⟨0x6, _, a, b, rfl, rfl⟩)
  | shl a b => exact .inr (.inr ⟨0x7, _, a, b, rfl, rfl⟩)
  | shr a b => exact .inr (.inr ⟨0x8, _, a, b, rfl, rfl⟩)
  | and a b => exact .inr (.inr ⟨0x9, _, a, b, rfl, rfl⟩)
  | or a b => exact .inr (.inr ⟨0xA, _, a, b, rfl, rfl⟩)
  | xor a b => exact .inr (.inr ⟨0xB, _, a, b, rfl, rfl⟩)
  | ife a b => exact .inr (.inr ⟨0xC, _, a, b, rfl, rfl⟩)
  | ifn a b => exact .inr (.inr ⟨0xD, _, a, b, rfl, rfl⟩)
  | ifg a b => exact .inr (.inr ⟨0xE, _, a, b, rfl, rfl⟩)
  | ifb a b => exact .inr (.inr ⟨0xF, _, a, b, rfl, rfl⟩)

/-- The three fields of a basic word (R72). -/
theorem basicWord_fields {op a b : Nat} (ho : op ≤ 15) (ha : a ≤ 63) (hb : b ≤ 63) :
    opField (basicWord op a b) = op ∧ midField (basicWord op a b) = a ∧ topField (basicWord op a b) = b := by
  simp only [opField, midField, topField, basicWord_toNat ho ha hb]
  omega

/-- The three fields of a non-basic word (R73). -/
theorem nonBasicWord_fields {nb a : Nat} (hn : nb ≤ 63) (ha : a ≤ 63) :
    opField (nonBasicWord nb a) = 0 ∧ midField (nonBasicWord nb a) = nb ∧ topField (nonBasicWord nb a) = a := by
  simp only [opField, midField, topField, nonBasicWord_toNat hn ha]
  omega

theorem le_of_basicOf {op : Nat} {mk : Operand → Operand → Instr} (h : basicOf op = some mk) : op ≤ 15 := by
  unfold basicOf at h
  split at h <;> cases h <;> decide

/-- Operand A's extension word comes first, whatever operand B puts after it (R74). -/
theorem decodeOperand_enc_fst {a : Operand} (ha : a.wf = true) (b : Operand) (x : Word) :
    decodeOperand a.enc ((a.extWords ++ b.extWords).getD 0 x) = some a := by
  have h : (a.extWords ++ b.extWords).getD 0 x = a.extWords.getD 0 (b.extWords.getD 0 x) := by
    cases a.extWords <;> rfl
  rw [h]
  exact decodeOperand_enc ha _

/-- Operand B's extension word is the second one exactly when operand A has one (R74). -/
theorem decodeOperand_enc_snd {a b : Operand} (ha : a.wf = true) (hb : b.wf = true) (x y : Word) :
    decodeOperand b.enc (if ext a.enc = 1 then (a.extWords ++ b.extWords).getD 1 y
      else (a.extWords ++ b.extWords).getD 0 x) = some b := by
  rw [Operand.ext_enc ha]
  have hle := a.ext_le
  unfold Operand.ext at hle ⊢
  match hl : a.extWords with
  | [] => simpa using decodeOperand_enc hb x
  | [u] => simpa using decodeOperand_enc hb y
  | u :: v :: us => simp [hl] at hle

theorem decode_encodeBasic {op : Nat} {mk : Operand → Operand → Instr} (h : basicOf op = some mk) {a b : Operand}
    (ha : a.wf = true) (hb : b.wf = true) (cfg : Config) (w x y : Word) :
    decode cfg ((encodeBasic op a b).getD 0 w) ((encodeBasic op a b).getD 1 x) ((encodeBasic op a b).getD 2 y) =
      .ok (mk a b) := by
  obtain ⟨hop, hmid, htop⟩ := basicWord_fields (le_of_basicOf h) (Operand.enc_le ha) (Operand.enc_le hb)
  simp only [encodeBasic, List.getD_cons_zero, List.getD_cons_succ, decode, decodeBasic, hop, hmid, htop, h,
    decodeOperand_enc_fst ha b x, decodeOperand_enc_snd ha hb x y]

theorem decode_encode_hlt {field : Nat} (hf : field < 64) (cfg : Config) (x y : Word) :
    decode cfg (nonBasicWord 0 field) x y = .ok (.hlt field) := by
  obtain ⟨hop, hmid, htop⟩ := nonBasicWord_fields (nb := 0) (by decide) (Nat.le_of_lt_succ hf)
  simp [decode, decodeNonBasic, basicOf, hop, hmid, htop]

theorem decode_encode_jsr {cfg : Config} (hc : cfg.wf = true) {a : Operand} (ha : a.wf = true) (x y : Word) :
    decode cfg (nonBasicWord cfg.jsrOpcode a.enc) (a.extWords.getD 0 x) y = .ok (.jsr a) := by
  simp only [Config.wf, Bool.and_eq_true, decide_eq_true_eq] at hc
  obtain ⟨hlo, hhi⟩ := hc
  obtain ⟨hop, hmid, htop⟩ := nonBasicWord_fields hhi (Operand.enc_le ha)
  have hne : cfg.jsrOpcode ≠ 0 := Nat.ne_of_gt hlo
  simp only [decode, decodeNonBasic, basicOf, hop, hmid, htop, hne, if_false, if_true, decodeOperand_enc ha x]

/-- The words of a well-formed instruction decode to it, whatever the stream holds where they end (R70 to R79). -/
theorem decode_encode {cfg : Config} {i : Instr} (hc : cfg.wf = true) (hi : i.wf = true) (w x y : Word) :
    decode cfg ((encode cfg i).getD 0 w) ((encode cfg i).getD 1 x) ((encode cfg i).getD 2 y) = .ok i := by
  rcases i.hlt_or_jsr_or_basic with ⟨field, rfl⟩ | ⟨a, rfl⟩ | ⟨op, mk, a, b, hmk, rfl⟩
  · exact decode_encode_hlt (of_decide_eq_true hi) cfg x y
  · exact decode_encode_jsr hc hi x _
  · obtain ⟨henc, hwf⟩ := (basicOf_inv hmk).2 cfg a b
    obtain ⟨ha, hb⟩ := Bool.and_eq_true_iff.1 (hwf ▸ hi)
    rw [henc]
    exact decode_encodeBasic hmk ha hb cfg w x y

/-- No instruction is longer than 3 words (R70). -/
theorem encode_length_le (cfg : Config) (i : Instr) : (encode cfg i).length ≤ 3 := by
  rcases i.hlt_or_jsr_or_basic with ⟨field, rfl⟩ | ⟨a, rfl⟩ | ⟨op, mk, a, b, hmk, rfl⟩
  · exact (Laws.WordCount.hlt field cfg).2
  · exact (Laws.WordCount.jsr a cfg).2
  · rw [((basicOf_inv hmk).2 cfg a b).1]
    exact (Laws.WordCount.encodeBasic_length op a b).2

end Sys2Proof

namespace Sys2Proof.Machine

/-! ## Reads after writes -/

/-- What any address reads as after a write (R50). -/
theorem State.memRead_memWrite (s : State) (addr v k : Word) :
    (s.memWrite addr v).memRead k = if k = addr then v else s.memRead k := by
  split
  next h => rw [h, State.memRead_memWrite_same]
  next h => exact State.memRead_memWrite_of_ne s h v

@[simp] theorem State.readReg_memWrite (s : State) (addr v : Word) (r : RegName) :
    (s.memWrite addr v).readReg r = s.readReg r := by cases r <;> rfl

/-- Storing words changes memory and nothing else. -/
theorem State.place_frame (s : State) (addr : Word) (ws : List Word) :
    s.place addr ws = { s with mem := (s.place addr ws).mem } := by
  induction ws generalizing s addr with
  | nil => rfl
  | cons v vs ih => exact ih (s.memWrite addr v) (addr + 1)

/-- What any address reads as after words are stored from `addr` upward, modulo 65536: the word at its distance from
`addr`, or what it held before if the words end sooner. -/
theorem State.memRead_place (s : State) (addr k : Word) {ws : List Word} (h : ws.length ≤ 65536) :
    (s.place addr ws).memRead k = ws.getD (k - addr).toNat (s.memRead k) := by
  induction ws generalizing s addr with
  | nil => rfl
  | cons v vs ih =>
    simp only [List.length_cons] at h
    rw [State.place, ih (s.memWrite addr v) (addr + 1) (by omega), State.memRead_memWrite]
    by_cases hk : k = addr
    · subst hk
      have hlast : (k - (k + 1)).toNat = 65535 := by bv_omega
      rw [if_pos rfl, hlast, List.getD_eq_default _ _ (by omega), BitVec.sub_self]
      rfl
    · have hdist : (k - addr).toNat = (k - (addr + 1)).toNat + 1 := by bv_omega
      rw [if_neg hk, hdist, List.getD_cons_succ]

/-! ## The invariant, shape by shape -/

section
variable {s t : State} {a b : Operand}

/-- All the invariant asks of a next state: canonical memory and the parameters as they were. -/
theorem State.Inv.next (h : s.Inv) (hmem : Memory.wf t.mem = true) (hcfg : t.cfg = s.cfg) :
    t.Inv ∧ t.cfg = s.cfg := ⟨⟨hmem, hcfg ▸ h.2⟩, hcfg⟩

theorem runPlain_keeps_inv {base : Nat} {f : Word → Word → Word} (h : s.Inv)
    (ht : runPlain base f a b s = .next t) : t.Inv ∧ t.cfg = s.cfg := by
  obtain ⟨u, hu, -, -, -, -, -, -, -, -, hcfg⟩ := runPlain_spec base f a b s
  cases hu.symm.trans ht
  exact h.next (wf_runPlain h.1 hu) hcfg

theorem runWithO_keeps_inv {base : Nat} {f g : Word → Word → Word} (h : s.Inv)
    (ht : runWithO base f g a b s = .next t) : t.Inv ∧ t.cfg = s.cfg := by
  obtain ⟨u, hu, -, -, -, -, -, -, -, -, hcfg⟩ := runWithO_spec base f g a b s
  cases hu.symm.trans ht
  exact h.next (wf_runWithO h.1 hu) hcfg

theorem runCond_keeps_inv {test : Word → Word → Bool} (h : s.Inv) (ht : runCond test a b s = .next t) :
    t.Inv ∧ t.cfg = s.cfg := by
  obtain ⟨u, hu, -, -, -, -, -, -, hcfg, -⟩ := runCond_spec test a b s
  cases hu.symm.trans ht
  exact h.next (wf_runCond h.1 hu) hcfg

theorem exec_basic_keeps_inv {op : Nat} {mk : Operand → Operand → Instr} (hmk : basicOf op = some mk) (h : s.Inv)
    (ht : exec (mk a b) s = .next t) : t.Inv ∧ t.cfg = s.cfg := by
  rcases exec_basic_shape hmk a b s with ⟨base, f, -, -, he⟩ | ⟨base, f, g, -, -, he⟩ | ⟨test, he⟩
  · exact runPlain_keeps_inv h (he ▸ ht)
  · exact runWithO_keeps_inv h (he ▸ ht)
  · exact runCond_keeps_inv h (he ▸ ht)

/-- Resolving an operand writes neither memory nor the parameters (R103). -/
theorem resolve_mem_cfg (op : Operand) (s : State) : (resolve op s).2.mem = s.mem ∧ (resolve op s).2.cfg = s.cfg := by
  rw [resolve_state]
  exact ⟨rfl, rfl⟩

/-- JSR writes memory by its push only (R205). -/
theorem execJsr_keeps_inv (h : s.Inv) (ht : execJsr a s = .next t) : t.Inv ∧ t.cfg = s.cfg := by
  obtain ⟨hmem, hcfg⟩ := resolve_mem_cfg a s
  cases ht
  exact h.next (State.wf_memWrite (s := (resolve a s).2.setSp _) (hmem.symm ▸ h.1) _ _) hcfg

end

/-! ## A step by the words at PC -/

/-- In phase Run the step is `exec` of what the words at PC decode to, with PC past the first of them (R101, R102). -/
theorem step_of_decode_ok {s : State} {i : Instr} (hp : s.phase = .run)
    (hd : decode s.cfg (s.memRead s.pc) (s.memRead (s.pc + 1)) (s.memRead (s.pc + 2)) = .ok i) :
    step s = exec i (s.setPc (s.pc + 1)) := by
  simp only [step, hp, fetch_eq, hd]

/-! ## The obligations -/

/-- Settles O6, by the cases of a step: HLT and a reserved word leave memory alone, JSR pushes one word, and a basic
instruction has one of the three shared shapes. -/
theorem everyStepKeepsTheInvariant : Obligations.EveryStepKeepsTheInvariant := by
  intro s t h hstep
  have hfetch : (s.setPc (s.pc + 1)).Inv := h
  rcases (step_next_inv rfl hstep).2 with ⟨-, -, rfl⟩ | ⟨-, -, -, a, -, hx⟩ | ⟨mk, a, b, hmk, -, hx⟩ |
    ⟨-, -, -, -, a, -, rfl⟩
  · exact h.next h.1 rfl
  · exact (execJsr_keeps_inv hfetch hx :)
  · exact (exec_basic_keeps_inv hmk hfetch hx :)
  · obtain ⟨hmem, hcfg⟩ := resolve_mem_cfg a (s.setPc (s.pc + 1))
    exact h.next (hmem.symm ▸ h.1) hcfg

/-- Settles O38: the words read back at PC, PC + 1 and PC + 2 are those of the encoding as far as it goes, so they
decode to the instruction. -/
theorem storedWordsAreWhatTheNextStepRuns : Obligations.StoredWordsAreWhatTheNextStepRuns := by
  intro s i hp hc hi s'
  have hread (k : Word) : s'.memRead k = (encode s.cfg i).getD (k - s.pc).toNat (s.memRead k) :=
    s.memRead_place s.pc k (Nat.le_trans (encode_length_le s.cfg i) (by decide))
  have h0 : (s.pc - s.pc).toNat = 0 := by bv_omega
  have h1 : (s.pc + 1 - s.pc).toNat = 1 := by bv_omega
  have h2 : (s.pc + 2 - s.pc).toNat = 2 := by bv_omega
  have hframe : s' = { s with mem := s'.mem } := s.place_frame s.pc _
  have hpc : s'.pc = s.pc := (congrArg State.pc hframe :)
  have hphase : s'.phase = s.phase := (congrArg State.phase hframe :)
  have hcfg : s'.cfg = s.cfg := (congrArg State.cfg hframe :)
  rw [← hpc]
  refine step_of_decode_ok (hphase.trans hp) ?_
  rw [hpc, hcfg, hread, hread, hread, h0, h1, h2]
  exact decode_encode hc hi _ _ _

/-- Settles O7: the law of a read after a write; no other piece of state is part of memory. -/
theorem memWriteReplacesOneWordOnly : Obligations.MemWriteReplacesOneWordOnly := by
  intro s addr v
  exact ⟨s.memRead_memWrite addr v, s.readReg_memWrite addr v, rfl, rfl, rfl⟩

end Sys2Proof.Machine
end

section
/-! Proofs about the encoding: the fields of every word (30_encoding.md R72, R73), decoding and encoding as inverses
(R70 to R79), lengths (R80), and what the word at PC decides of a step (R79 to R84). -/

namespace Sys2Proof

/-! ## The fields as bits -/

theorem opField_eq_and (w : Word) : opField w = (w &&& 0x000F).toNat := by
  rw [BitVec.toNat_and]
  exact (Nat.and_two_pow_sub_one_eq_mod w.toNat 4).symm

theorem midField_eq_and (w : Word) : midField w = (w >>> 4 &&& 0x003F).toNat := by
  rw [BitVec.toNat_and, BitVec.toNat_ushiftRight, Nat.shiftRight_eq_div_pow]
  exact (Nat.and_two_pow_sub_one_eq_mod (w.toNat / 2 ^ 4) 6).symm

/-- The low ten bits are the two fields that name a non-basic instruction. -/
theorem toNat_and_low_ten (w : Word) : (w &&& 0x03FF).toNat = midField w * 16 + opField w := by
  have hmod : (w &&& 0x03FF).toNat = w.toNat % 1024 := by
    rw [BitVec.toNat_and]
    exact Nat.and_two_pow_sub_one_eq_mod w.toNat 10
  rw [hmod, midField, opField]
  omega

theorem and_low_four_eq_zero_iff (w : Word) : w &&& 0x000F = 0 ↔ opField w = 0 := by
  rw [opField_eq_and]
  exact BitVec.toNat_inj.symm

theorem and_mid_six_eq_zero_iff (w : Word) : w >>> 4 &&& 0x003F = 0 ↔ midField w = 0 := by
  rw [midField_eq_and]
  exact BitVec.toNat_inj.symm

/-- The halt words (R83). -/
theorem and_low_ten_eq_zero_iff (w : Word) : w &&& 0x03FF = 0 ↔ opField w = 0 ∧ midField w = 0 := by
  have h : w &&& 0x03FF = 0 ↔ midField w * 16 + opField w = 0 := by
    rw [← toNat_and_low_ten]
    exact BitVec.toNat_inj.symm
  rw [h]
  omega

theorem fields_eq_extract (w : Word) :
    opField w = (w.extractLsb' 0 4).toNat ∧ midField w = (w.extractLsb' 4 6).toNat ∧
    topField w = (w.extractLsb' 10 6).toNat := by
  have hw := w.isLt
  refine ⟨?_, ?_, ?_⟩ <;>
    simp only [opField, midField, topField, BitVec.extractLsb'_toNat, Nat.shiftRight_eq_div_pow] <;>
    omega

/-! ## The formats hold every word -/

/-- The fields of the basic format do not overlap, so its sum is a bitwise or (R72). -/
theorem basicWord_eq_or {op a : Nat} (ho : op ≤ 15) (ha : a ≤ 63) (b : Nat) :
    basicWord op a b = BitVec.ofNat 16 ((b <<< 10) ||| (a <<< 4) ||| op) := by
  have hlow : a <<< 4 ||| op = a * 16 + op := by
    rw [← Nat.shiftLeft_add_eq_or_of_lt (by omega : op < 2 ^ 4), Nat.shiftLeft_eq]
  have hall : b <<< 10 ||| (a * 16 + op) = b * 1024 + (a * 16 + op) := by
    rw [← Nat.shiftLeft_add_eq_or_of_lt (by omega : a * 16 + op < 2 ^ 10), Nat.shiftLeft_eq]
  rw [Nat.or_assoc, hlow, hall, ← Nat.add_assoc]
  rfl

/-- The non-basic format is the basic one with opcode 0 (R73). -/
theorem nonBasicWord_eq_basicWord (nb a : Nat) : nonBasicWord nb a = basicWord 0 nb a := by
  rw [nonBasicWord, basicWord, Nat.add_zero]

theorem basicWord_of_fields (w : Word) : basicWord (opField w) (midField w) (topField w) = w := by
  apply BitVec.eq_of_toNat_eq
  rw [basicWord_toNat (opField_le w) (midField_le w) (topField_le w), opField, midField, topField]
  omega

theorem nonBasicWord_of_fields {w : Word} (h : opField w = 0) : nonBasicWord (midField w) (topField w) = w := by
  rw [nonBasicWord_eq_basicWord, ← h]
  exact basicWord_of_fields w

/-! ## Decoding and encoding -/

/-- What a stream holds at `k`: the word of its first part, or where that ends the word of what follows. -/
theorem getD_append_eq_getD_getD (l r : List Word) (k : Nat) (d : Word) :
    (l ++ r).getD k d = l.getD k (r.getD (k - l.length) d) := by
  by_cases hk : k < l.length
  · rw [List.getD_append _ _ _ _ hk, List.getD_eq_getElem _ _ hk, List.getD_eq_getElem _ _ hk]
  · have hle : l.length ≤ k := Nat.le_of_not_lt hk
    rw [List.getD_append_right _ _ _ _ hle, List.getD_eq_default l _ hle]

theorem decodeOperand_ext {e : Nat} {x : Word} {p : Operand} (h : decodeOperand e x = some p) : p.ext = ext e := by
  obtain ⟨hwf, henc, -, -⟩ := decodeOperand_inv h
  rw [← Operand.ext_enc hwf, henc]

/-- The extension words of two operands read one after the other from `x` and `y` are a prefix of these two (R74). -/
theorem extWords_append_eq_take {eA eB : Nat} {x y : Word} {a b : Operand} (ha : decodeOperand eA x = some a)
    (hb : decodeOperand eB (if ext eA = 1 then y else x) = some b) :
    a.extWords ++ b.extWords = [x, y].take (a.extWords ++ b.extWords).length := by
  obtain ⟨-, -, hax, -⟩ := decodeOperand_inv ha
  obtain ⟨-, -, hbx, -⟩ := decodeOperand_inv hb
  rcases ext_eq_zero_or_one eA with hA | hA <;> rcases ext_eq_zero_or_one eB with hB | hB <;>
    simp [hax, hbx, hA, hB]

/-! ## Lengths -/

/-- `len` of a basic word counts the extension words of its two operands (R80). -/
theorem len_of_basic {w x y : Word} {a b : Operand} (h : opField w ≠ 0) (ha : decodeOperand (midField w) x = some a)
    (hb : decodeOperand (topField w) y = some b) : len w = 1 + a.ext + b.ext := by
  rw [len, if_neg h, decodeOperand_ext ha, decodeOperand_ext hb]

theorem length_encodeBasic {op : Nat} (h0 : op ≠ 0) (ho : op ≤ 15) {a b : Operand} (ha : a.wf = true)
    (hb : b.wf = true) : (encodeBasic op a b).length = len (basicWord op a.enc b.enc) := by
  obtain ⟨hop, hmid, htop⟩ := basicWord_fields ho (Operand.enc_le ha) (Operand.enc_le hb)
  rw [len, hop, hmid, htop, if_neg h0, Operand.ext_enc ha, Operand.ext_enc hb]
  simp only [encodeBasic, List.length_cons, List.length_append, Operand.ext]
  omega

theorem len_nonBasicWord {nb e : Nat} (hn : nb ≤ 63) (he : e ≤ 63) : len (nonBasicWord nb e) = 1 + ext e := by
  obtain ⟨hop, -, htop⟩ := nonBasicWord_fields hn he
  rw [len, hop, htop, if_pos rfl]

/-- `len` of the first word counts the words of every instruction but HLT (R80). -/
theorem length_encode {cfg : Config} {i : Instr} (hc : cfg.wf = true) (hi : i.wf = true)
    (hne : ∀ field, i ≠ .hlt field) : (encode cfg i).length = len ((encode cfg i).getD 0 0) := by
  rcases i.hlt_or_jsr_or_basic with ⟨field, rfl⟩ | ⟨a, rfl⟩ | ⟨op, mk, a, b, hmk, rfl⟩
  · exact absurd rfl (hne field)
  · simp only [Config.wf, Bool.and_eq_true, decide_eq_true_eq] at hc
    have ha : a.wf = true := hi
    simp only [encode, List.getD_cons_zero, List.length_cons]
    rw [len_nonBasicWord hc.2 (Operand.enc_le ha), Operand.ext_enc ha, Operand.ext]
    omega
  · obtain ⟨hop, hrow⟩ := basicOf_inv hmk
    obtain ⟨henc, hwf⟩ := hrow cfg a b
    obtain ⟨ha, hb⟩ := Bool.and_eq_true_iff.1 (hwf ▸ hi)
    rw [henc]
    exact length_encodeBasic hop (le_of_basicOf hmk) ha hb

/-! ## The obligations about words -/

/-- Settles O10: the stream's first words are the encoding's, continued by whatever follows, and that is all the
decoder's round trip needs. -/
theorem decodeOfEncodeIsTheInstruction : Obligations.DecodeOfEncodeIsTheInstruction := by
  intro cfg i rest hc hi stream
  simp only [stream, getD_append_eq_getD_getD]
  exact decode_encode hc hi _ _ _

/-- Settles O9, one format at a time; that every word has a format is the sum of its fields. -/
theorem formatsHoldTheirFields : Obligations.FormatsHoldTheirFields := by
  refine ⟨fun op a b _ ho ha hb => ⟨basicWord_eq_or ho ha b, basicWord_fields ho ha hb⟩,
    fun nb a hn ha => ⟨?_, nonBasicWord_fields hn ha⟩, fun w => ?_⟩
  · rw [nonBasicWord_eq_basicWord, basicWord_eq_or (Nat.zero_le 15) hn, Nat.or_zero]
  · obtain ⟨hop, hmid, htop⟩ := fields_eq_extract w
    refine ⟨hop, hmid, htop, ?_⟩
    split
    · next h0 => exact (nonBasicWord_of_fields h0).symm
    · exact (basicWord_of_fields w).symm

/-- Settles O11, by what an accepted word can be: its first word is made of its own fields, and each operand's
extension words are those it was read from. -/
theorem encodeOfDecodeIsTheWords : Obligations.EncodeOfDecodeIsTheWords := by
  intro cfg w x y i h
  rcases decode_ok_inv h with ⟨h0, hm, rfl⟩ | ⟨h0, -, hj, a, rfl, ha⟩ | ⟨mk, a, b, hmk, rfl, ha, hb⟩
  · have hw : nonBasicWord 0 (topField w) = w := hm ▸ nonBasicWord_of_fields h0
    refine ⟨decide_eq_true (Nat.lt_succ_of_le (topField_le w)), ?_, Nat.le_refl 1⟩
    simp [encode, hw]
  · obtain ⟨hwf, henc, hext, -⟩ := decodeOperand_inv ha
    have hw : nonBasicWord cfg.jsrOpcode a.enc = w := by rw [henc, ← hj, nonBasicWord_of_fields h0]
    refine ⟨hwf, ?_, (Laws.WordCount.jsr a cfg).1⟩
    rcases ext_eq_zero_or_one (topField w) with he | he <;> simp [encode, hw, hext, he]
  · obtain ⟨hwfA, hencA, -, -⟩ := decodeOperand_inv ha
    obtain ⟨hwfB, hencB, -, -⟩ := decodeOperand_inv hb
    obtain ⟨henc, hwf⟩ := (basicOf_inv hmk).2 cfg a b
    refine ⟨by rw [hwf, hwfA, hwfB]; rfl, ?_, henc ▸ (Laws.WordCount.encodeBasic_length _ a b).1⟩
    rw [henc, encodeBasic, hencA, hencB, basicWord_of_fields, List.length_cons, List.take_succ_cons,
      ← extWords_append_eq_take ha hb]

/-- Settles O14: HLT is one word whatever its field; every other instruction is as long as `len` says. -/
theorem lengthIsTheNumberOfWords : Obligations.LengthIsTheNumberOfWords := by
  intro cfg i hc hi
  cases i with
  | hlt field =>
    have hf : field < 64 := of_decide_eq_true hi
    exact ⟨rfl, len_nonBasicWord (Nat.zero_le 63) (Nat.le_of_lt_succ hf)⟩
  | _ => exact ⟨length_encode hc hi (by simp), encode_length_le cfg _⟩

end Sys2Proof

namespace Sys2Proof.Machine

/-! ## What a step in phase Run is -/

/-- Every step in phase Run is one of four, by the word at PC: HLT, JSR, a basic instruction or a reserved word. -/
theorem step_run_cases {s : State} {w : Word} (hp : s.phase = .run) (hw : s.memRead s.pc = w) :
    (opField w = 0 ∧ midField w = 0 ∧ step s = .next ((s.setPc (s.pc + 1)).setPhase .halted)) ∨
    (opField w = 0 ∧ midField w ≠ 0 ∧ midField w = s.cfg.jsrOpcode ∧
      ∃ a, step s = execJsr a (s.setPc (s.pc + 1))) ∨
    (∃ mk a b x y, basicOf (opField w) = some mk ∧ decodeOperand (midField w) x = some a ∧
      decodeOperand (topField w) y = some b ∧ step s = exec (mk a b) (s.setPc (s.pc + 1))) ∨
    (opField w = 0 ∧ midField w ≠ 0 ∧ midField w ≠ s.cfg.jsrOpcode ∧
      step s = execReserved w (s.setPc (s.pc + 1))) := by
  subst hw
  cases hd : decode s.cfg (s.memRead s.pc) (s.memRead (s.pc + 1)) (s.memRead (s.pc + 2)) with
  | ok i =>
    have hstep := step_of_decode_ok hp hd
    rcases decode_ok_inv hd with ⟨h0, hm, rfl⟩ | ⟨h0, hm, hj, a, rfl, -⟩ | ⟨mk, a, b, hmk, rfl, ha, hb⟩
    · exact .inl ⟨h0, hm, hstep⟩
    · exact .inr (.inl ⟨h0, hm, hj, a, hstep⟩)
    · exact .inr (.inr (.inl ⟨mk, a, b, _, _, hmk, ha, hb, hstep⟩))
  | error r =>
    obtain ⟨rfl, h0, hm, hj⟩ := decode_error_inv hd
    exact .inr (.inr (.inr ⟨h0, hm, hj, by simp only [step, hp, fetch_eq, hd, execReject]⟩))

/-- A basic instruction always completes and leaves the phase as it was (R226). -/
theorem exec_basic_completes {op : Nat} {mk : Operand → Operand → Instr} (hmk : basicOf op = some mk)
    (a b : Operand) (s : State) : ∃ t, exec (mk a b) s = .next t ∧ t.phase = s.phase := by
  rcases exec_basic_shape hmk a b s with ⟨base, f, -, -, he⟩ | ⟨base, f, g, -, -, he⟩ | ⟨test, he⟩
  · obtain ⟨t, ht, -, -, -, -, -, -, -, hphase, -⟩ := runPlain_spec base f a b s
    exact ⟨t, he.trans ht, hphase⟩
  · obtain ⟨t, ht, -, -, -, -, -, -, -, hphase, -⟩ := runWithO_spec base f g a b s
    exact ⟨t, he.trans ht, hphase⟩
  · obtain ⟨t, ht, -, -, -, -, -, hphase, -, -⟩ := runCond_spec test a b s
    exact ⟨t, he.trans ht, hphase⟩

/-- JSR always completes and leaves the phase as it was (R226). -/
theorem execJsr_completes (a : Operand) (s : State) : ∃ t, execJsr a s = .next t ∧ t.phase = s.phase := by
  obtain ⟨-, -, -, -, -, -, -, hphase, -⟩ := pushWord_spec (resolve a s).2 (resolve a s).2.pc
  refine ⟨_, rfl, ?_⟩
  rw [State.charge_phase, State.setPc_phase, hphase, resolve_state]
  rfl

/-- The only fault of a step is an illegal instruction (R210, R220). -/
theorem step_fault_inv {s : State} {f : Fault} (h : step s = .fault f) : f = .illegalInstruction (s.memRead s.pc) := by
  cases hp : s.phase with
  | halted => simp only [step, hp, reduceCtorEq] at h
  | faulted => simp only [step, hp, reduceCtorEq] at h
  | run =>
    rcases step_run_cases hp rfl with ⟨-, -, hs⟩ | ⟨-, -, -, a, hs⟩ | ⟨mk, a, b, x, y, hmk, -, -, hs⟩ | ⟨-, -, -, hs⟩
    · cases hs.symm.trans h
    · cases hs.symm.trans h
    · obtain ⟨t, ht, -⟩ := exec_basic_completes hmk a b (s.setPc (s.pc + 1))
      cases (hs.trans ht).symm.trans h
    · rcases execReserved_cases (s.memRead s.pc) (s.setPc (s.pc + 1)) with ⟨-, hr⟩ | ⟨-, a, -, hr⟩
      · cases (hs.trans hr).symm.trans h
        rfl
      · cases (hs.trans hr).symm.trans h

/-! ## PC after an instruction that does not jump -/

section
variable {a b : Operand} {s : State}

/-- Only the operand PC names the program counter (R114). -/
theorem slotA_ne_pc (h : a ≠ .pc) : slotA a s ≠ .reg .pc := by
  cases a with
  | pc => exact absurd rfl h
  | _ => simp [slotA, resolve]

theorem runPlain_pc (base : Nat) (f : Word → Word → Word) (h : slotA a s ≠ .reg .pc) :
    ∃ t, runPlain base f a b s = .next t ∧ t.pc = s.pc + BitVec.ofNat 16 (a.ext + b.ext) := by
  obtain ⟨t, ht, -, -, -, -, hpc, -⟩ := runPlain_spec base f a b s
  exact ⟨t, ht, hpc h⟩

theorem runWithO_pc (base : Nat) (f g : Word → Word → Word) (h : slotA a s ≠ .reg .pc) :
    ∃ t, runWithO base f g a b s = .next t ∧ t.pc = s.pc + BitVec.ofNat 16 (a.ext + b.ext) := by
  obtain ⟨t, ht, -, -, -, -, hpc, -⟩ := runWithO_spec base f g a b s
  exact ⟨t, ht, hpc h⟩

/-- Opcodes 1 to 11 write a result and never skip, so PC moves past the extension words only (R77, R103). -/
theorem exec_writing_pc {op : Nat} {mk : Operand → Operand → Instr} (hmk : basicOf op = some mk) (hop : op < 12)
    (h : slotA a s ≠ .reg .pc) :
    ∃ t, exec (mk a b) s = .next t ∧ t.pc = s.pc + BitVec.ofNat 16 (a.ext + b.ext) := by
  unfold basicOf at hmk
  split at hmk <;> cases hmk
  · exact runPlain_pc 1 (fun _ vb => vb) h
  · exact runWithO_pc _ _ _ h
  · exact runWithO_pc _ _ _ h
  · exact runWithO_pc _ _ _ h
  · exact runWithO_pc _ _ _ h
  · exact runPlain_pc _ _ h
  · exact runWithO_pc _ _ _ h
  · exact runWithO_pc _ _ _ h
  · exact runPlain_pc _ _ h
  · exact runPlain_pc _ _ h
  · exact runPlain_pc _ _ h
  all_goals exact absurd hop (by decide)

end

/-! ## The obligations about steps -/

/-- Settles O13: the decoder refuses reserved words only, and a step faults on those only. -/
theorem noWordHoldsABadOperandEncoding : Obligations.NoWordHoldsABadOperandEncoding := by
  refine ⟨fun cfg w x y enc h => ?_, fun s enc h => ?_⟩
  · cases (decode_error_inv h).1
  · cases step_fault_inv h

/-- Settles O39: the three conditions on the word are conditions on its fields, and these tell the four cases of a
step apart. -/
theorem theWordAtPcDecidesHowAStepEnds : Obligations.TheWordAtPcDecidesHowAStepEnds := by
  intro s hp
  simp only [and_low_ten_eq_zero_iff, and_low_four_eq_zero_iff, ne_eq, and_mid_six_eq_zero_iff, ← midField_eq_and]
  rcases step_run_cases hp rfl with ⟨h0, hm, hs⟩ | ⟨h0, hm, hj, a, hs⟩ | ⟨mk, a, b, x, y, hmk, -, -, hs⟩ |
    ⟨h0, hm, hj, hs⟩
  · exact ⟨fun _ => ⟨_, hs, rfl⟩, fun ⟨⟨_, hne, _⟩, _⟩ => absurd hm hne, fun ⟨hne, _⟩ => absurd ⟨h0, hm⟩ hne⟩
  · obtain ⟨t, ht, hphase⟩ := execJsr_completes a (s.setPc (s.pc + 1))
    exact ⟨fun ⟨_, hz⟩ => absurd hz hm, fun ⟨⟨_, _, hne⟩, _⟩ => absurd hj hne,
      fun _ => ⟨t, hs.trans ht, hphase.trans hp⟩⟩
  · obtain ⟨t, ht, hphase⟩ := exec_basic_completes hmk a b (s.setPc (s.pc + 1))
    have hop := (basicOf_inv hmk).1
    exact ⟨fun ⟨hz, _⟩ => absurd hz hop, fun ⟨⟨hz, _⟩, _⟩ => absurd hz hop,
      fun _ => ⟨t, hs.trans ht, hphase.trans hp⟩⟩
  · refine ⟨fun ⟨_, hz⟩ => absurd hz hm, ?_⟩
    rcases execReserved_cases (s.memRead s.pc) (s.setPc (s.pc + 1)) with ⟨hmode, hr⟩ | ⟨hmode, a, -, hr⟩
    · have hfault := hs.trans hr
      exact ⟨fun _ => ⟨hfault, by rw [hfault]; rfl⟩, fun ⟨_, hn⟩ => absurd ⟨⟨h0, hm, hj⟩, hmode⟩ hn⟩
    · refine ⟨fun ⟨_, hfault⟩ => (by cases hmode.symm.trans hfault), fun _ => ⟨_, hs.trans hr, ?_⟩⟩
      rw [State.charge_phase, resolve_state]
      exact hp

/-- Settles O43: the fetch moves PC past the first word and the two operands past their extension words, which are
the `len` words of the instruction. -/
theorem pcMovesPastTheWholeInstruction : Obligations.PcMovesPastTheWholeInstruction := by
  intro s w hp h0 hop hmid
  rcases step_run_cases hp rfl with ⟨hz, -⟩ | ⟨hz, -⟩ | ⟨mk, a, b, x, y, hmk, ha, hb, hs⟩ | ⟨hz, -⟩
  · exact absurd hz h0
  · exact absurd hz h0
  · have hne : a ≠ .pc := by
      rintro rfl
      exact hmid (decodeOperand_inv ha).2.1.symm
    obtain ⟨t, ht, hpc⟩ := exec_writing_pc (b := b) hmk hop (slotA_ne_pc (s := s.setPc (s.pc + 1)) hne)
    refine ⟨t, hs.trans ht, ?_⟩
    rw [hpc, len_of_basic h0 ha hb, Nat.add_assoc, BitVec.ofNat_add 1, ← BitVec.add_assoc]
    rfl
  · exact absurd hz h0

end Sys2Proof.Machine
end

section
/-! Proofs about the step and its operands (40_step_and_operands.md): the step as the pseudocode of R126, how every
operand resolves (R103 to R122), one place as both operands (R123), the stack as both operands (R128), and the phases
in which no step exists (R100). -/

namespace Sys2Proof.Machine

/-! ## Resolution on raw words is resolution of the decoded operand -/

/-- Resolving an encoding with the extension word read from memory is resolving the operand that was decoded with that
word (R104 to R118). -/
theorem resolveEnc_eq_resolve {enc : Nat} {op : Operand} {s : State}
    (h : decodeOperand enc (s.memRead s.pc) = some op) : resolveEnc enc s = some (resolve op s) := by
  have he : enc ≤ 63 := (decodeOperand_inv h).2.2.2
  interval_cases enc <;> cases h <;> rfl

/-- Resolving an operand leaves PC at the word that follows its extension word, if it has one (R103). -/
theorem memRead_pc_resolve (op : Operand) (s : State) :
    (resolve op s).2.memRead (resolve op s).2.pc = if op.ext = 1 then s.memRead (s.pc + 1) else s.memRead s.pc := by
  rw [resolve_state]
  have hle := op.ext_le
  split
  next h => rw [h]; rfl
  next h =>
    have h0 : op.ext = 0 := by omega
    simp [h0]

theorem resolve_cfg (op : Operand) (s : State) : (resolve op s).2.cfg = s.cfg := (resolve_mem_cfg op s).2

theorem resolved_cfg (a b : Operand) (s : State) : (resolved a b s).cfg = s.cfg := by
  rw [resolved_eq]
  rfl

theorem writeSlot_cfg (sl : Slot) (v : Word) (s : State) : (writeSlot sl v s).cfg = s.cfg := by
  obtain ⟨-, -, -, -, -, -, hcfg, -⟩ := writeSlot_frame sl v s
  exact hcfg

/-! ## The shapes of a basic instruction, with their cost as R126 adds it up -/

section
variable (base : Nat) (f g : Word → Word → Word) (test : Word → Word → Bool) (a b : Operand) (s : State)

/-- The cost of R126, charged on a state with the parameters the step began with. -/
theorem charge_basicCost {t : State} (h : t.cfg = s.cfg) :
    t.charge (basicCost base a b) = t.addCyc (s.cfg.fetchCost + base + (a.ext + b.ext)) := by
  simp only [State.charge, basicCost, h, Nat.add_assoc]

theorem runPlain_eq :
    runPlain base f a b s =
      .next ((writeSlot (slotA a s) (f (valueA a b s) (valueB a b s)) (resolved a b s)).addCyc
        (s.cfg.fetchCost + base + (a.ext + b.ext))) := by
  rw [runPlain, charge_basicCost base a b s ((writeSlot_cfg _ _ _).trans (resolved_cfg a b s))]

theorem runWithO_eq :
    runWithO base f g a b s =
      .next (((writeSlot (slotA a s) (f (valueA a b s) (valueB a b s)) (resolved a b s)).setO
        (g (valueA a b s) (valueB a b s))).addCyc (s.cfg.fetchCost + base + (a.ext + b.ext))) := by
  have hcfg := (writeSlot_cfg (slotA a s) (f (valueA a b s) (valueB a b s)) _).trans (resolved_cfg a b s)
  exact congrArg Host.Outcome.next (charge_basicCost base a b s ((State.setO_cfg _ _).trans hcfg))

theorem runCond_eq :
    runCond test a b s =
      if test (valueA a b s) (valueB a b s) then
        .next ((resolved a b s).addCyc (s.cfg.fetchCost + 2 + (a.ext + b.ext)))
      else .next ((resolved a b s).skip.addCyc (s.cfg.fetchCost + 2 + (a.ext + b.ext) + 1)) := by
  have hcfg := resolved_cfg a b s
  simp only [runCond, charge_basicCost 2 a b s hcfg]
  simp only [State.charge, State.skip, State.advancePc_cfg, hcfg, basicCost, Nat.add_assoc]

end

/-! ## The basic half of the pseudocode -/

/-- What the basic half of R126 does once both operands are resolved: the case over the opcode, then the skip. -/
def pseudoEnd (op : Nat) (a b : Operand) (s : State) : Outcome :=
  let va := valueA a b s
  let vb := valueB a b s
  let cost := s.cfg.fetchCost + baseCost op + (a.ext + b.ext)
  let t := operate op (slotA a s) va vb (resolved a b s)
  if condHolds op va vb then .next (t.addCyc cost) else .next (t.skip.addCyc (cost + 1))

/-- The basic half of the pseudocode on the operands its word decodes to. -/
theorem pseudoBasic_eq_pseudoEnd {w : Word} {s : State} {a b : Operand}
    (ha : decodeOperand (midField w) (s.memRead s.pc) = some a)
    (hb : decodeOperand (topField w) (if ext (midField w) = 1 then s.memRead (s.pc + 1) else s.memRead s.pc) = some b) :
    pseudoBasic w s = pseudoEnd (opField w) a b s := by
  have hA := resolveEnc_eq_resolve ha
  have hB : resolveEnc (topField w) (resolve a s).2 = some (resolve b (resolve a s).2) := by
    apply resolveEnc_eq_resolve
    rw [memRead_pc_resolve, decodeOperand_ext ha]
    exact hb
  simp only [pseudoBasic, hA, hB, ← decodeOperand_ext ha, ← decodeOperand_ext hb]
  rfl

/-- Every basic instruction is the opcode's row of the pseudocode (R77, R126). -/
theorem exec_basic_eq_pseudoEnd {op : Nat} {mk : Operand → Operand → Instr} (h : basicOf op = some mk)
    (a b : Operand) (s : State) : exec (mk a b) s = pseudoEnd op a b s := by
  unfold basicOf at h
  split at h <;> cases h
  · exact runPlain_eq 1 (fun _ vb => vb) a b s
  · exact runWithO_eq 2 addResult addO a b s
  · exact runWithO_eq 2 subResult subO a b s
  · exact runWithO_eq 2 mulResult mulO a b s
  · simp only [pseudoEnd, operate, resolved_cfg]
    exact runWithO_eq 3 divResult (divO s.cfg.divOMode) a b s
  · exact runPlain_eq 3 modResult a b s
  · simp only [pseudoEnd, operate, resolved_cfg]
    exact runWithO_eq 2 (shlResult s.cfg.shiftCountMode) (shlO s.cfg.shiftCountMode) a b s
  · simp only [pseudoEnd, operate, resolved_cfg]
    exact runWithO_eq 2 (shrResult s.cfg.shiftCountMode) (shrO s.cfg.shiftCountMode) a b s
  · exact runPlain_eq 1 (fun va vb => va &&& vb) a b s
  · exact runPlain_eq 1 (fun va vb => va ||| vb) a b s
  · exact runPlain_eq 1 (fun va vb => va ^^^ vb) a b s
  · exact runCond_eq (fun va vb => decide (va = vb)) a b s
  · exact runCond_eq (fun va vb => decide (va ≠ vb)) a b s
  · exact runCond_eq (fun va vb => decide (va.toNat > vb.toNat)) a b s
  · exact runCond_eq (fun va vb => decide (va &&& vb ≠ 0)) a b s

/-! ## The non-basic half of the pseudocode -/

theorem pseudoNonBasic_jsr {w : Word} {s : State} {a : Operand} (hm : midField w ≠ 0)
    (hj : midField w = s.cfg.jsrOpcode) (ha : decodeOperand (topField w) (s.memRead s.pc) = some a) :
    pseudoNonBasic w s = execJsr a s := by
  obtain ⟨-, -, -, -, -, -, -, -, hcfg⟩ := pushWord_spec (resolve a s).2 (resolve a s).2.pc
  have hcost : s.cfg.fetchCost + 2 + ext (topField w) =
      ((resolve a s).2.pushWord (resolve a s).2.pc).cfg.fetchCost + (2 + a.ext) := by
    rw [hcfg, resolve_cfg, decodeOperand_ext ha, Nat.add_assoc]
  rw [pseudoNonBasic, if_neg hm, if_pos hj, resolveEnc_eq_resolve ha]
  simp only [hcost]
  rfl

theorem pseudoNonBasic_reserved {w : Word} {s : State} (hm : midField w ≠ 0) (hj : midField w ≠ s.cfg.jsrOpcode) :
    pseudoNonBasic w s = execReserved w s := by
  rw [pseudoNonBasic, if_neg hm, if_neg hj]
  rcases execReserved_cases w s with ⟨hmode, hr⟩ | ⟨hmode, a, ha, hr⟩
  · rw [hr, hmode]
    rfl
  · rw [hr, hmode, resolveEnc_eq_resolve ha, State.charge, resolve_cfg, decodeOperand_ext ha]

/-! ## The obligations about the step -/

/-- Settles O37, by what the words at PC decode to: the pseudocode resolves the very operands the decoder names. -/
theorem stepIsThePseudocodeOfTheSpec : Obligations.StepIsThePseudocodeOfTheSpec := by
  intro s hp
  have hpc2 : s.pc + 1 + 1 = s.pc + 2 := by rw [BitVec.add_assoc]; rfl
  simp only [pseudoStep, trunc16_add_nat]
  cases hd : decode s.cfg (s.memRead s.pc) (s.memRead (s.pc + 1)) (s.memRead (s.pc + 2)) with
  | ok i =>
    rw [step_of_decode_ok hp hd]
    rcases decode_ok_inv hd with ⟨h0, hm, rfl⟩ | ⟨h0, hm, hj, a, rfl, ha⟩ | ⟨mk, a, b, hmk, rfl, ha, hb⟩
    · rw [if_neg (not_not_intro h0), pseudoNonBasic, if_pos hm]
      rfl
    · rw [if_neg (not_not_intro h0)]
      exact (pseudoNonBasic_jsr (s := s.setPc (s.pc + 1)) hm hj ha).symm
    · rw [if_pos (basicOf_inv hmk).1, exec_basic_eq_pseudoEnd hmk]
      refine (pseudoBasic_eq_pseudoEnd (s := s.setPc (s.pc + 1)) ha ?_).symm
      rw [State.setPc_pc, hpc2]
      exact hb
  | error r =>
    obtain ⟨rfl, h0, hm, hj⟩ := decode_error_inv hd
    have hstep : step s = execReserved (s.memRead s.pc) (s.setPc (s.pc + 1)) := by
      simp only [step, hp, fetch_eq, hd, execReject]
    rw [if_neg (not_not_intro h0), hstep]
    exact (pseudoNonBasic_reserved (s := s.setPc (s.pc + 1)) hm hj).symm

/-- Settles O36: the fetch reads these three words and moves PC past the first. -/
theorem stepRunsTheDecodedInstruction : Obligations.StepRunsTheDecodedInstruction := by
  intro s i hp hd
  exact step_of_decode_ok hp hd

/-- Settles O40, by the four cases of a step in phase Run, each of which answers a next state or a fault. -/
theorem noStepExistsOutsidePhaseRun : Obligations.NoStepExistsOutsidePhaseRun := by
  intro s
  refine ⟨fun hp => by simp only [step, hp], fun hp => by simp only [step, hp], fun hp r h => ?_⟩
  rcases step_run_cases hp rfl with ⟨-, -, hs⟩ | ⟨-, -, -, a, hs⟩ | ⟨mk, a, b, x, y, hmk, -, -, hs⟩ |
    ⟨-, -, -, hs⟩
  · cases hs.symm.trans h
  · cases hs.symm.trans h
  · obtain ⟨t, ht, -⟩ := exec_basic_completes hmk a b (s.setPc (s.pc + 1))
    cases (hs.trans ht).symm.trans h
  · rcases execReserved_cases (s.memRead s.pc) (s.setPc (s.pc + 1)) with ⟨-, hr⟩ | ⟨-, a, -, hr⟩
    · cases (hs.trans hr).symm.trans h
    · cases (hs.trans hr).symm.trans h

/-! ## Reads through slots -/

theorem readSlot_writeSlot_same {sl : Slot} (h : ∀ u, sl ≠ .imm u) (v : Word) (s : State) :
    readSlot sl (writeSlot sl v s) = v :=
  (slotHolds_iff_readSlot h).1 (slotHolds_writeSlot sl v s)

/-- A write through one slot leaves every other slot reading as before. -/
theorem readSlot_writeSlot_of_ne {sl sl' : Slot} (h : sl' ≠ sl) (v : Word) (s : State) :
    readSlot sl' (writeSlot sl v s) = readSlot sl' s := by
  obtain ⟨hgen, hpc, hsp, ho, hmem, -⟩ := writeSlot_frame sl v s
  cases sl' with
  | reg q =>
    cases q with
    | gen r => exact hgen r h.symm
    | sp => exact hsp h.symm
    | pc => exact hpc h.symm
    | o => exact ho h.symm
  | mem k => exact hmem k h.symm
  | imm u => rfl

/-- Settles O8: the same place, another place, or an immediate, which no write reaches. -/
theorem slotReadsAfterSlotWrites : Obligations.SlotReadsAfterSlotWrites := by
  intro sl sl' v s
  split
  next h => rw [h.1, readSlot_writeSlot_same h.2]
  next h =>
    by_cases hsl : sl' = sl
    · obtain ⟨u, rfl⟩ : ∃ u, sl = .imm u := by simpa [hsl] using h
      rfl
    · exact readSlot_writeSlot_of_ne hsl v s

/-- Writing back what a slot reads as changes what no slot reads as. -/
theorem readSlot_writeSlot_self (sl sl' : Slot) (s : State) :
    readSlot sl' (writeSlot sl (readSlot sl s) s) = readSlot sl' s := by
  rw [slotReadsAfterSlotWrites sl sl']
  split
  next h => rw [h.1]
  next => rfl

theorem readSlot_charge (sl : Slot) (n : Nat) (s : State) : readSlot sl (s.charge n) = readSlot sl s := by
  cases sl with
  | reg q => cases q <;> rfl
  | mem k => rfl
  | imm u => rfl

/-! ## How the encodings resolve -/

theorem State.advancePc_one (s : State) : s.advancePc 1 = s.setPc (s.pc + 1) := by
  rw [State.advancePc, trunc16_add_nat]
  rfl

/-- A well-formed operand's encoding resolves as the operand does, if the extension word is the one in the operand. -/
theorem resolvesTo_enc {op : Operand} {nw : Word} {sl : Slot} {s t : State} (hwf : op.wf = true)
    (hnw : op.extWords.getD 0 nw = nw) (hr : resolve op s = (sl, t)) : ResolvesTo op.enc nw op.ext sl s t := by
  have hd := decodeOperand_enc hwf nw
  rw [hnw] at hd
  exact ⟨op, hd, rfl, hr⟩

/-- The three encodings of a register (R104, R105, R106). -/
theorem register_encodings_resolve {n : Nat} {r : Reg} (h : Reg.ofNum n = some r) (nw : Word) (s : State) :
    ResolvesTo n nw 0 (.reg (.gen r)) s s ∧ ResolvesTo (0x08 + n) nw 0 (.mem (s.reg r)) s s ∧
    ResolvesTo (0x10 + n) nw 1 (.mem (nw + s.reg r)) s (s.setPc (s.pc + 1)) := by
  have hn : r.num = n := Reg.num_of_ofNum h
  subst hn
  refine ⟨resolvesTo_enc (op := .reg r) rfl rfl rfl, resolvesTo_enc (op := .ind r) rfl rfl rfl,
    resolvesTo_enc (op := .idx nw r) rfl rfl ?_⟩
  rw [resolve, trunc16_add, State.advancePc_one]

/-- Settles O15, one operand form at a time. -/
theorem registerNextWordAndLiteralEncodingsResolve : Obligations.RegisterNextWordAndLiteralEncodingsResolve := by
  intro s nw past
  have hpast : s.advancePc 1 = past := s.advancePc_one
  refine ⟨fun n r h => register_encodings_resolve h nw s,
    resolvesTo_enc (op := .sp) rfl rfl rfl, resolvesTo_enc (op := .pc) rfl rfl rfl,
    resolvesTo_enc (op := .o) rfl rfl rfl,
    resolvesTo_enc (op := .nextInd nw) rfl rfl (by rw [resolve, hpast]),
    resolvesTo_enc (op := .nextLit nw) rfl rfl (by rw [resolve, hpast]),
    fun v hv => resolvesTo_enc (op := .lit v) (decide_eq_true hv) rfl rfl, fun w v t => ⟨rfl, rfl⟩⟩

/-- Settles O16: SP moves by word arithmetic, which wraps at both ends of memory. -/
theorem stackEncodingsResolve : Obligations.StackEncodingsResolve := by
  intro s nw
  refine ⟨resolvesTo_enc (op := .pop) rfl rfl ?_, resolvesTo_enc (op := .peek) rfl rfl rfl,
    resolvesTo_enc (op := .push) rfl rfl ?_⟩
  · rw [resolve, trunc16_add_nat]
    rfl
  · simp only [resolve, truncInt16_sub_one]

/-! ## What the operands read as -/

/-- What an operand's slot reads as, once PC and SP have moved on: the slot is fixed by SP as the resolution finds it,
and is read in the later state (R122). -/
theorem readSlot_resolve (op : Operand) (s : State) (pc0 sp0 pcEnd spEnd : Word) :
    readSlot (resolve op ((s.setPc pc0).setSp sp0)).1 ((s.setPc pcEnd).setSp spEnd) =
      operandReads op sp0 pcEnd spEnd s := by
  cases op with
  | idx nw r => simp only [resolve, trunc16_add]; rfl
  | push => simp only [resolve, truncInt16_sub_one]; rfl
  | _ => rfl

theorem valueA_eq_operandReads (a b : Operand) (s : State) :
    valueA a b s =
      operandReads a s.sp (s.pc + BitVec.ofNat 16 (a.ext + b.ext)) (s.sp + spMove a + spMove b) s := by
  rw [valueA, resolved_eq]
  exact readSlot_resolve a s s.pc s.sp _ _

theorem valueB_eq_operandReads (a b : Operand) (s : State) :
    valueB a b s =
      operandReads b (s.sp + spMove a) (s.pc + BitVec.ofNat 16 (a.ext + b.ext)) (s.sp + spMove a + spMove b) s := by
  rw [valueB, resolved_eq, slotB, resolve_state a]
  exact readSlot_resolve b s _ _ _ _

/-- Settles O17: the two values are their slots, named before and read after both resolutions. -/
theorem operandsAreReadAfterBothResolutions : Obligations.OperandsAreReadAfterBothResolutions :=
  fun a b s => ⟨valueA_eq_operandReads a b s, valueB_eq_operandReads a b s⟩

/-! ## An immediate as destination -/

/-- What a writing instruction that drops its write does: it completes, moves PC and SP as resolution does, costs
`cost`, and leaves the rest as it was, O too unless it writes O anyway (R121, R124). -/
def DropsTheWrite (a b : Operand) (s : State) (out : Outcome) (cost : Nat) (writesO : Prop) : Prop :=
  ∃ t, out = .next t ∧ t.regs = s.regs ∧ t.mem = s.mem ∧ t.phase = s.phase ∧ t.cfg = s.cfg ∧
    t.pc = s.pc + BitVec.ofNat 16 (a.ext + b.ext) ∧ t.sp = s.sp + spMove b ∧
    t.cyc = s.cyc + s.cfg.fetchCost + cost + a.ext + b.ext ∧ (¬ writesO → t.o = s.o)

section
variable {a : Operand} {s : State} {u : Word}

/-- A literal or an extension word is an immediate and moves no SP (R117, R118). -/
theorem slotA_of_immediate (h : (∃ v, a = .lit v) ∨ ∃ nw, a = .nextLit nw) :
    (∃ u, slotA a s = .imm u) ∧ s.sp + spMove a = s.sp := by
  have hzero : s.sp + 0 = s.sp := BitVec.add_zero s.sp
  rcases h with ⟨v, rfl⟩ | ⟨nw, rfl⟩
  · exact ⟨⟨_, rfl⟩, hzero⟩
  · exact ⟨⟨_, rfl⟩, hzero⟩

/-- The cost of R126 added to CYC, summand by summand. -/
theorem cyc_add_cost (base : Nat) (a b : Operand) (s : State) :
    s.cyc + (s.cfg.fetchCost + base + (a.ext + b.ext)) = s.cyc + s.cfg.fetchCost + base + a.ext + b.ext := by omega

/-- Only resolution moves the state when the destination is an immediate. -/
theorem runPlain_dropsTheWrite (h : slotA a s = .imm u) (hsp : s.sp + spMove a = s.sp) (base : Nat)
    (f : Word → Word → Word) (b : Operand) : DropsTheWrite a b s (runPlain base f a b s) base False := by
  rw [runPlain_eq, h, resolved_eq, hsp]
  exact ⟨_, rfl, rfl, rfl, rfl, rfl, rfl, rfl, cyc_add_cost base a b s, fun _ => rfl⟩

theorem runWithO_dropsTheWrite (h : slotA a s = .imm u) (hsp : s.sp + spMove a = s.sp) (base : Nat)
    (f g : Word → Word → Word) (b : Operand) : DropsTheWrite a b s (runWithO base f g a b s) base True := by
  rw [runWithO_eq, h, resolved_eq, hsp]
  exact ⟨_, rfl, rfl, rfl, rfl, rfl, rfl, rfl, cyc_add_cost base a b s, fun hn => absurd trivial hn⟩

end

/-- Settles O28: each of the eleven instructions is one of the two writing shapes. -/
theorem immediateDestinationsDropTheWrite : Obligations.ImmediateDestinationsDropTheWrite := by
  intro a b s himm quiet
  obtain ⟨⟨u, hu⟩, hsp⟩ := slotA_of_immediate (s := s) himm
  have plain := runPlain_dropsTheWrite hu hsp
  have withO := runWithO_dropsTheWrite hu hsp
  exact ⟨plain 1 (fun _ vb => vb) b, plain 3 modResult b, plain 1 (fun va vb => va &&& vb) b,
    plain 1 (fun va vb => va ||| vb) b, plain 1 (fun va vb => va ^^^ vb) b, withO 2 addResult addO b,
    withO 2 subResult subO b, withO 2 mulResult mulO b, withO 3 divResult (divO s.cfg.divOMode) b,
    withO 2 (shlResult s.cfg.shiftCountMode) (shlO s.cfg.shiftCountMode) b,
    withO 2 (shrResult s.cfg.shiftCountMode) (shrO s.cfg.shiftCountMode) b⟩

/-! ## One place as both operands -/

theorem addResult_self (v : Word) : addResult v v = 2 * v := by
  rw [addResult, trunc16_add]
  exact BitVec.two_mul.symm

theorem subResult_self (v : Word) : subResult v v = 0 := by
  rw [subResult, truncInt16_sub, BitVec.sub_self]
  rfl

theorem subO_self (v : Word) : subO v v = 0 := if_neg (Nat.lt_irrefl _)

section
variable {a b : Operand} {s : State}

theorem valueB_eq_valueA (h : slotA a s = slotB a b s) : valueB a b s = valueA a b s := by
  rw [valueB, ← h]
  rfl

theorem exec_add_aliased (h : slotA a s = slotB a b s) :
    ∃ t, exec (.add a b) s = .next t ∧ (slotA a s ≠ .reg .o → SlotHolds (slotA a s) (2 * valueA a b s) t) := by
  obtain ⟨t, ht, hv, -⟩ := runWithO_spec 2 addResult addO a b s
  rw [valueB_eq_valueA h, addResult_self] at hv
  exact ⟨t, ht, hv⟩

/-- SUB of a place from itself leaves 0 there, in O too, where 0 is written last (R124). -/
theorem exec_sub_aliased (h : slotA a s = slotB a b s) :
    ∃ t, exec (.sub a b) s = .next t ∧ SlotHolds (slotA a s) 0 t ∧ t.o = 0 := by
  obtain ⟨t, ht, hv, ho, -⟩ := runWithO_spec 2 subResult subO a b s
  rw [valueB_eq_valueA h] at hv ho
  rw [subResult_self] at hv
  rw [subO_self] at ho
  refine ⟨t, ht, ?_, ho⟩
  by_cases hO : slotA a s = .reg .o
  · rw [hO]; exact ho
  · exact hv hO

theorem exec_xor_aliased (h : slotA a s = slotB a b s) :
    ∃ t, exec (.xor a b) s = .next t ∧ SlotHolds (slotA a s) 0 t := by
  obtain ⟨t, ht, hv, -⟩ := runPlain_spec 1 (fun va vb => va ^^^ vb) a b s
  rw [valueB_eq_valueA h, BitVec.xor_self] at hv
  exact ⟨t, ht, hv⟩

/-- SET of a place to itself writes back what is there, so every slot reads as resolution left it. -/
theorem exec_set_aliased (h : slotA a s = slotB a b s) :
    ∃ t, exec (.set a b) s = .next t ∧ ∀ sl, readSlot sl t = readSlot sl (resolved a b s) := by
  refine ⟨_, rfl, fun sl => ?_⟩
  rw [readSlot_charge, valueB_eq_valueA h, valueA, readSlot_writeSlot_self]

/-- The same, in the registers and the words of memory. -/
theorem exec_set_aliased_state (h : slotA a s = slotB a b s) :
    ∃ t, exec (.set a b) s = .next t ∧ (∀ r, t.reg r = s.reg r) ∧ t.o = s.o ∧
      t.pc = s.pc + BitVec.ofNat 16 (a.ext + b.ext) ∧ t.sp = s.sp + spMove a + spMove b ∧
      ∀ k, t.memRead k = s.memRead k := by
  obtain ⟨t, ht, hread⟩ := exec_set_aliased h
  rw [resolved_eq] at hread
  exact ⟨t, ht, fun r => hread (.reg (.gen r)), hread (.reg .o), hread (.reg .pc), hread (.reg .sp),
    fun k => hread (.mem k)⟩

end

/-! ## A register and a word of memory as destination -/

theorem slotA_idx (nw : Word) (r : Reg) (s : State) : slotA (.idx nw r) s = .mem (nw + s.reg r) := by
  rw [slotA, resolve, trunc16_add]

theorem slotA_push (s : State) : slotA .push s = .mem (s.sp - 1) := by
  simp only [slotA, resolve, truncInt16_sub_one]

/-- SET into a general register moves SP by operand B's resolution only. -/
theorem exec_set_reg (r : Reg) (b : Operand) (s : State) :
    ∃ t, exec (.set (.reg r) b) s = .next t ∧ t.reg r = valueB (.reg r) b s ∧ t.sp = s.sp + spMove b := by
  obtain ⟨t, ht, hv, -, -, -, -, hsp, -⟩ := runPlain_spec 1 (fun _ vb => vb) (.reg r) b s
  refine ⟨t, ht, hv, ?_⟩
  simpa [spMove] using hsp nofun

/-- A plain result stored in memory: the one word it changes, and the registers it leaves. -/
theorem runPlain_mem {a : Operand} {s : State} {addr : Word} (h : slotA a s = .mem addr) (base : Nat)
    (f : Word → Word → Word) (b : Operand) :
    ∃ t, runPlain base f a b s = .next t ∧ (∀ r, t.reg r = s.reg r) ∧ t.sp = s.sp + spMove a + spMove b ∧
      ∀ k, t.memRead k = if k = addr then f (valueA a b s) (valueB a b s) else s.memRead k := by
  obtain ⟨t, ht, hv, -, -, hreg, -, hsp, hmem, -⟩ := runPlain_spec base f a b s
  rw [h] at hv hreg hsp hmem
  refine ⟨t, ht, fun r => hreg r nofun, hsp nofun, fun k => ?_⟩
  split
  next hk => rw [hk]; exact hv
  next hk => exact hmem k fun e => hk (Slot.mem.inj e).symm

/-- SET through an address that operand B is read at or indexed with keeps the register and stores its old value. -/
theorem exec_set_mem_reg {a : Operand} {s : State} {addr : Word} (h : slotA a s = .mem addr) (r : Reg) :
    ∃ t, exec (.set a (.reg r)) s = .next t ∧ t.memRead addr = s.reg r ∧ t.reg r = s.reg r := by
  obtain ⟨t, ht, hreg, -, hmem⟩ := runPlain_mem h 1 (fun _ vb => vb) (.reg r)
  refine ⟨t, ht, ?_, hreg r⟩
  rw [hmem, if_pos rfl, valueB_eq_operandReads]
  rfl

theorem exec_xor_ind (r : Reg) (s : State) :
    ∃ t, exec (.xor (.ind r) (.ind r)) s = .next t ∧ t.memRead (s.reg r) = 0 ∧
      ∀ k, k ≠ s.reg r → t.memRead k = s.memRead k := by
  have hslot : slotA (.ind r) s = .mem (s.reg r) := rfl
  obtain ⟨t, ht, -, -, hmem⟩ := runPlain_mem hslot 1 (fun va vb => va ^^^ vb) (.ind r)
  refine ⟨t, ht, ?_, fun k hk => by rw [hmem, if_neg hk]⟩
  rw [hmem, if_pos rfl, valueB_eq_valueA rfl, BitVec.xor_self]
  rfl

/-- SET of a register to itself: both operands resolve without moving the state. -/
theorem exec_set_reg_self (r : Reg) (s : State) :
    ∃ t, exec (.set (.reg r) (.reg r)) s = .next t ∧ (∀ q, t.readReg q = s.readReg q) ∧
      ∀ k, t.memRead k = s.memRead k := by
  obtain ⟨t, ht, hread⟩ := exec_set_aliased (a := .reg r) (b := .reg r) (s := s) rfl
  exact ⟨t, ht, fun q => hread (.reg q), fun k => hread (.mem k)⟩

/-- Settles O29: two operands in one slot read the same value, so the results are those of one value with itself; the
forms of the second part are instances, or name the one place they write. -/
theorem aliasedOperandsAreReadBeforeTheWrite : Obligations.AliasedOperandsAreReadBeforeTheWrite := by
  refine ⟨fun a b s h => ⟨exec_add_aliased h, exec_sub_aliased h, exec_xor_aliased h, exec_set_aliased_state h⟩,
    fun r nw s => ?_⟩
  have hsame : slotA (.reg r) s = slotB (.reg r) (.reg r) s := rfl
  obtain ⟨tAdd, hAdd, hsum⟩ := exec_add_aliased hsame
  obtain ⟨tInd, hInd, hind, -⟩ := exec_set_reg r (.ind r) s
  obtain ⟨tIdx, hIdx, hidx, -⟩ := exec_set_reg r (.idx nw r) s
  obtain ⟨tPeek, hPeek, -, -, -, -, hmem⟩ := exec_set_aliased_state (a := .peek) (b := .pop) (s := s) rfl
  rw [valueB_eq_operandReads] at hind hidx
  exact ⟨⟨tAdd, hAdd, hsum nofun⟩, exec_sub_aliased hsame, exec_xor_aliased hsame, exec_xor_ind r s,
    exec_set_reg_self r s, ⟨tInd, hInd, hind⟩, ⟨tIdx, hIdx, hidx⟩, exec_set_mem_reg (a := .ind r) rfl r,
    exec_set_mem_reg (slotA_idx nw r s) r, ⟨tPeek, hPeek, hmem⟩⟩

/-! ## The stack as both operands -/

/-- SET of `a` from `b` completes with this SP and this memory. -/
def SetGives (s : State) (a b : Operand) (sp' : Word) (mem' : Word → Word) : Prop :=
  ∃ t, exec (.set a b) s = .next t ∧ t.sp = sp' ∧ ∀ k, t.memRead k = mem' k

section
variable {s : State} {a b : Operand} {sp' addr v : Word}

/-- Two stack operands in one cell leave memory as it was. -/
theorem setGives_of_aliased (h : slotA a s = slotB a b s) (hsp : s.sp + spMove a + spMove b = sp') :
    SetGives s a b sp' s.memRead := by
  obtain ⟨t, ht, -, -, -, htsp, hmem⟩ := exec_set_aliased_state h
  exact ⟨t, ht, htsp.trans hsp, hmem⟩

/-- A stack operand as destination stores what operand B reads as in its own cell. -/
theorem setGives_of_mem (h : slotA a s = .mem addr) (hsp : s.sp + spMove a + spMove b = sp')
    (hv : operandReads b (s.sp + spMove a) (s.pc + BitVec.ofNat 16 (a.ext + b.ext)) sp' s = v) :
    SetGives s a b sp' (fun k => if k = addr then v else s.memRead k) := by
  obtain ⟨t, ht, -, htsp, hmem⟩ := runPlain_mem h 1 (fun _ vb => vb) b
  refine ⟨t, ht, htsp.trans hsp, fun k => ?_⟩
  rw [hmem, valueB_eq_operandReads, hsp, hv]

/-- With SP as destination the moves of resolution are lost and memory is left alone. -/
theorem setGives_sp
    (hv : operandReads b s.sp (s.pc + BitVec.ofNat 16 b.ext) (s.sp + spMove b) s = v) :
    SetGives s .sp b v s.memRead := by
  obtain ⟨t, ht, hsp, -, -, -, -, -, hmem, -⟩ := runPlain_spec 1 (fun _ vb => vb) .sp b s
  refine ⟨t, ht, Eq.trans hsp ?_, fun k => hmem k nofun⟩
  rw [valueB_eq_operandReads, ← hv]
  simp [spMove, Operand.ext, Operand.extWords]

end

theorem slotB_pop_push (s : State) : slotB .pop .push s = .mem s.sp := by
  have hsp : s.sp + 1 - 1 = s.sp := BitVec.add_sub_cancel _ _
  simp only [slotB, resolve, truncInt16_sub_one, trunc16_add_nat]
  exact congrArg Slot.mem hsp

/-- Settles O30, a row of R128 at a time: five pairs name one cell, six store into operand A's cell, two set SP. Where
operand B is PUSH its own decrement is in the address it is read at. -/
theorem bothOperandsOnTheStack : Obligations.BothOperandsOnTheStack := by
  intro s m p gives put
  have hp : p = s.sp := rfl
  have hpop : spMove .pop = 1 := rfl
  have hpush : spMove .push = -1 := rfl
  have hpeek : spMove .peek = 0 := rfl
  have hsp : spMove .sp = 0 := rfl
  have push_pop : gives .push .pop p m := setGives_of_aliased rfl (by bv_omega)
  have pop_push : gives .pop .push p m := setGives_of_aliased (slotB_pop_push s).symm (by bv_omega)
  have push_peek : gives .push .peek (p - 1) m := setGives_of_aliased rfl (by bv_omega)
  have peek_push : gives .peek .push (p - 1) (put p (m (p - 1))) :=
    setGives_of_mem rfl (by bv_omega) (congrArg m (by bv_omega : s.sp + spMove .peek - 1 = p - 1))
  have pop_pop : gives .pop .pop (p + 2) (put p (m (p + 1))) := setGives_of_mem rfl (by bv_omega) rfl
  have push_push : gives .push .push (p - 2) (put (p - 1) (m (p - 2))) :=
    setGives_of_mem (slotA_push s) (by bv_omega) (congrArg m (by bv_omega : s.sp + spMove .push - 1 = p - 2))
  have pop_peek : gives .pop .peek (p + 1) (put p (m (p + 1))) := setGives_of_mem rfl (by bv_omega) rfl
  have peek_pop : gives .peek .pop (p + 1) m := setGives_of_aliased rfl (by bv_omega)
  have peek_peek : gives .peek .peek p m := setGives_of_aliased rfl (by bv_omega)
  have sp_pop : gives .sp .pop (m p) m := setGives_sp rfl
  have sp_push : gives .sp .push (m (p - 1)) m := setGives_sp rfl
  have push_sp : gives .push .sp (p - 1) (put (p - 1) (p - 1)) := setGives_of_mem (slotA_push s) (by bv_omega) rfl
  have pop_sp : gives .pop .sp (p + 1) (put p (p + 1)) := setGives_of_mem rfl (by bv_omega) rfl
  exact ⟨push_pop, pop_push, push_peek, peek_push, pop_pop, push_push, pop_peek, peek_pop, peek_peek, sp_pop,
    sp_push, push_sp, pop_sp⟩

/-! ## A push and a pop -/

/-- Settles O31: the push stores the value below the old SP and leaves SP there, where the pop reads it. -/
theorem pushThenPopGivesTheValueBack : Obligations.PushThenPopGivesTheValueBack := by
  intro x r s t hx hpush
  obtain ⟨t', ht', -, hsp, hmem⟩ := runPlain_mem (slotA_push s) 1 (fun _ vb => vb) x
  cases ht'.symm.trans hpush
  have htop : t.sp = s.sp - 1 := by rw [hsp, hx, spMove]; bv_omega
  obtain ⟨u, hu, hv, husp⟩ := exec_set_reg r .pop (t.advancePc 1)
  refine ⟨u, hu, ?_, ?_⟩
  · rw [hv, valueB_eq_operandReads]
    simp [operandReads, spMove, htop, hmem]
  · rw [husp, State.advancePc_sp, htop, spMove]
    bv_omega

end Sys2Proof.Machine
end

section
/-! Proofs about SET, ADD, SUB, MUL, DIV and MOD (41_move_arith.md): each is one of the two writing shapes, so what is
left to prove of it is the arithmetic of its result and of O. -/

namespace Sys2Proof.Machine

/-! ## The results and O as arithmetic on words and naturals -/

theorem addResult_eq_add (a b : Word) : addResult a b = a + b := trunc16_add a b

theorem subResult_eq_sub (a b : Word) : subResult a b = a - b := truncInt16_sub a b

/-- The product of two words fits in 32 bits, so its two halves hold all of it (R146). -/
theorem mulO_mulResult_eq_mul (a b : Word) :
    (mulO a b).toNat * 65536 + (mulResult a b).toNat = a.toNat * b.toNat := by
  have hlt : a.toNat * b.toNat < 65536 * 65536 := Nat.mul_lt_mul'' a.isLt b.isLt
  simp only [mulO, mulResult, trunc16_toNat, Nat.shiftRight_eq_div_pow]
  omega

/-- Division by 0 gives 0, in the destination and in O, in both modes (R148). -/
theorem divResult_zero (a : Word) : divResult a 0 = 0 := rfl

theorem divO_zero (mode : DivOMode) (a : Word) : divO mode a 0 = 0 := rfl

theorem modResult_zero (a : Word) : modResult a 0 = 0 := rfl

section
variable {b : Word} (hb : 0 < b.toNat) (a : Word)
include hb

theorem divResult_toNat : (divResult a b).toNat = a.toNat / b.toNat := by
  rw [divResult, if_neg hb.ne', trunc16_toNat]
  exact Nat.mod_eq_of_lt (Nat.lt_of_le_of_lt (Nat.div_le_self ..) a.isLt)

theorem modResult_toNat : (modResult a b).toNat = a.toNat % b.toNat := by
  rw [modResult, if_neg hb.ne', trunc16_toNat]
  exact Nat.mod_eq_of_lt (Nat.lt_of_le_of_lt (Nat.mod_le ..) a.isLt)

theorem divO_quotient_toNat :
    (divO .quotient a b).toNat = a.toNat / b.toNat * 65536 / b.toNat % 65536 := by
  rw [divO, if_neg hb.ne', trunc16_toNat, Nat.shiftLeft_eq]

/-- In mode DIVIDEND the integer part of `a * 65536 / b` is cut off and O is the fraction of the remainder (R148). -/
theorem divO_dividend_toNat : (divO .dividend a b).toNat = a.toNat % b.toNat * 65536 / b.toNat := by
  have hsplit : a.toNat <<< 16 = a.toNat % b.toNat * 65536 + a.toNat / b.toNat * 65536 * b.toNat := by
    calc a.toNat <<< 16 = (a.toNat % b.toNat + a.toNat / b.toNat * b.toNat) * 65536 := by
          rw [Nat.mod_add_div', Nat.shiftLeft_eq]
      _ = a.toNat % b.toNat * 65536 + a.toNat / b.toNat * 65536 * b.toNat := by ring
  have hlt : a.toNat % b.toNat * 65536 / b.toNat < 65536 :=
    Nat.div_lt_of_lt_mul (Nat.mul_lt_mul_of_pos_right (Nat.mod_lt _ hb) (by decide))
  rw [divO, if_neg hb.ne', trunc16_toNat, hsplit, Nat.add_mul_div_right _ _ hb, Nat.add_mul_mod_self_right,
    Nat.mod_eq_of_lt hlt]

end

/-! ## The six instructions -/

/-- Settles O18: SET is the plain shape with `b` as its result. -/
theorem setCopiesTheSource : Obligations.SetCopiesTheSource :=
  runPlain_spec 1 fun _ vb => vb

/-- Settles O19: truncation of the sum is word addition, and the carry is the test of R142. -/
theorem addWrapsAndSetsOToTheCarry : Obligations.AddWrapsAndSetsOToTheCarry := by
  intro a b s va vb
  rw [← addResult_eq_add]
  exact ⟨rfl, runWithO_spec 2 addResult addO a b s⟩

/-- Settles O20: truncation of the difference is word subtraction, and the borrow is the test of R144. -/
theorem subWrapsAndSetsOToTheBorrow : Obligations.SubWrapsAndSetsOToTheBorrow := by
  intro a b s va vb
  rw [← subResult_eq_sub]
  exact ⟨rfl, runWithO_spec 2 subResult subO a b s⟩

/-- Settles O21: the destination and O are the two halves of the product. -/
theorem mulSplitsTheProductBetweenDestinationAndO : Obligations.MulSplitsTheProductBetweenDestinationAndO := by
  intro a b s va vb
  obtain ⟨t, ht, hw⟩ := runWithO_spec 2 mulResult mulO a b s
  exact ⟨rfl, mulResult va vb, mulO va vb, t, ht, mulO_mulResult_eq_mul va vb, hw⟩

/-- Settles O22: the quotient is the division of naturals, whose remainder is what O is the fraction of in mode
DIVIDEND. -/
theorem divGivesQuotientAndFraction : Obligations.DivGivesQuotientAndFraction := by
  intro a b s va vb
  obtain ⟨t, ht, hw⟩ := runWithO_spec 3 divResult (divO s.cfg.divOMode) a b s
  refine ⟨divResult va vb, divO s.cfg.divOMode va vb, t, ht, hw, fun h0 => ?_, fun hne => ?_⟩
  · rw [h0]
    exact ⟨divResult_zero va, divO_zero _ va⟩
  · have hb : 0 < vb.toNat := BitVec.toNat_pos_of_ne_zero hne
    have hrem : va.toNat - va.toNat / vb.toNat * vb.toNat = va.toNat % vb.toNat := Nat.mod_eq_sub_div_mul.symm
    rw [divResult_toNat hb, hrem]
    refine ⟨Nat.div_mul_le_self .., Nat.lt_mul_of_div_lt (Nat.lt_succ_self _) hb, fun hq => ?_, fun hd => ?_⟩
    · rw [hq, divO_quotient_toNat hb]
    · rw [hd, divO_dividend_toNat hb]

/-- Settles O23: the result is the remainder of the division of naturals. -/
theorem modGivesTheRemainder : Obligations.ModGivesTheRemainder := by
  intro a b s va vb
  obtain ⟨t, ht, hw⟩ := runPlain_spec 3 modResult a b s
  refine ⟨modResult va vb, t, ht, hw, fun h0 => ?_, fun hne => ?_⟩
  · rw [h0]
    exact modResult_zero va
  · have hb : 0 < vb.toNat := BitVec.toNat_pos_of_ne_zero hne
    rw [modResult_toNat hb]
    exact ⟨Nat.mod_lt _ hb, (Nat.div_add_mod' ..).symm⟩

end Sys2Proof.Machine
end

section
/-! Proofs about SHL, SHR, AND, OR and XOR (42_shift_logic.md): each is one of the two writing shapes, so what is left
to prove of it is that the shifts of naturals are those of a 32-bit word, and what the logic does to a bit. -/

namespace Sys2Proof.Machine

/-! ## The shifts as halves of a 32-bit word -/

/-- `sc(b)` of R160, told by the mode. -/
theorem shiftCount_eq (mode : ShiftCountMode) (b : Word) :
    shiftCount mode b = if mode = .mask5 then b.toNat % 32 else b.toNat := by
  cases mode <;> rfl

theorem extractLsb'_low_ofNat (v : Nat) : (BitVec.ofNat 32 v).extractLsb' 0 16 = trunc16 v := by
  apply BitVec.eq_of_toNat_eq
  simp only [BitVec.extractLsb'_toNat, BitVec.toNat_ofNat, trunc16_toNat, Nat.shiftRight_zero]
  omega

theorem extractLsb'_high_ofNat (v : Nat) : (BitVec.ofNat 32 v).extractLsb' 16 16 = trunc16 (v >>> 16) := by
  apply BitVec.eq_of_toNat_eq
  simp only [BitVec.extractLsb'_toNat, BitVec.toNat_ofNat, trunc16_toNat, Nat.shiftRight_eq_div_pow]
  omega

/-- A 32-bit left shift drops exactly the bits of the unbounded one that neither half holds. -/
theorem setWidth_shiftLeft_eq_ofNat (a : Word) (n : Nat) :
    a.setWidth 32 <<< n = BitVec.ofNat 32 (a.toNat <<< n) := by
  apply BitVec.eq_of_toNat_eq
  rw [BitVec.toNat_shiftLeft, BitVec.toNat_setWidth_of_le (by decide), BitVec.toNat_ofNat]

/-- `a * 65536` fits in 32 bits, so its right shift there is the right shift of naturals. -/
theorem setWidth_shiftLeft_ushiftRight_eq_ofNat (a : Word) (n : Nat) :
    (a.setWidth 32 <<< 16) >>> n = BitVec.ofNat 32 ((a.toNat <<< 16) >>> n) := by
  have hlt : a.toNat <<< 16 < 2 ^ 32 := by
    have := a.isLt
    rw [Nat.shiftLeft_eq]
    omega
  apply BitVec.eq_of_toNat_eq
  rw [setWidth_shiftLeft_eq_ofNat, BitVec.toNat_ushiftRight, BitVec.toNat_ofNat, BitVec.toNat_ofNat,
    Nat.mod_eq_of_lt hlt, Nat.mod_eq_of_lt (Nat.lt_of_le_of_lt (Nat.shiftRight_le _ n) hlt)]

/-! ## The five instructions -/

/-- Settles O24: the result and O are the low and the high half of the left shift, seen in 32 bits. -/
theorem shlShiftsLeftIntoO : Obligations.ShlShiftsLeftIntoO := by
  intro a b s va vb n wide
  have hwide : wide = BitVec.ofNat 32 (va.toNat <<< shiftCount s.cfg.shiftCountMode vb) := by
    rw [shiftCount_eq]
    exact setWidth_shiftLeft_eq_ofNat va n
  rw [hwide, extractLsb'_low_ofNat, extractLsb'_high_ofNat]
  exact runWithO_spec 2 (shlResult s.cfg.shiftCountMode) (shlO s.cfg.shiftCountMode) a b s

/-- Settles O25: the result and O are the high and the low half of the right shift, seen in 32 bits. -/
theorem shrShiftsRightIntoO : Obligations.ShrShiftsRightIntoO := by
  intro a b s va vb n wide
  have hwide : wide = BitVec.ofNat 32 ((va.toNat <<< 16) >>> shiftCount s.cfg.shiftCountMode vb) := by
    rw [shiftCount_eq]
    exact setWidth_shiftLeft_ushiftRight_eq_ofNat va n
  rw [hwide, extractLsb'_low_ofNat, extractLsb'_high_ofNat]
  exact runWithO_spec 2 (shrResult s.cfg.shiftCountMode) (shrO s.cfg.shiftCountMode) a b s

/-- A plain instruction whose operation works bit by bit completes with a result that is named bit by bit. -/
theorem runPlain_bitwise {f : Word → Word → Word} {g : Bool → Bool → Bool}
    (hf : ∀ x y k, (f x y).getLsbD k = g (x.getLsbD k) (y.getLsbD k)) (base : Nat) (a b : Operand) (s : State) :
    ∃ v t, runPlain base f a b s = .next t ∧ WritesPlain v base a b s t ∧
      ∀ k, v.getLsbD k = g ((valueA a b s).getLsbD k) ((valueB a b s).getLsbD k) := by
  obtain ⟨t, ht, hw⟩ := runPlain_spec base f a b s
  exact ⟨_, t, ht, hw, hf _ _⟩

/-- Settles O26: each of the three is the plain shape with an operation that works bit by bit. -/
theorem andOrXorWorkBitByBit : Obligations.AndOrXorWorkBitByBit := by
  intro a b s va vb
  exact ⟨runPlain_bitwise (fun _ _ _ => BitVec.getLsbD_and) 1 a b s,
    runPlain_bitwise (fun _ _ _ => BitVec.getLsbD_or) 1 a b s,
    runPlain_bitwise (fun _ _ _ => BitVec.getLsbD_xor) 1 a b s⟩

end Sys2Proof.Machine
end

section
/-! Proofs about IFE, IFN, IFG and IFB (43_conditional.md): all four are one shape, so what is left to prove is that its
outcome is told by the condition its test decides, and that for IFB a nonzero AND is a bit in common. Then the words
that the spec writes out. -/

namespace Sys2Proof.Machine

/-- A conditional whose test decides `cond` has the outcome that `cond` tells of the values of its operands (R180). -/
theorem runCond_decide (cond : Word → Word → Prop) [∀ x y, Decidable (cond x y)] (a b : Operand) (s : State) :
    ∃ t, runCond (fun x y => decide (cond x y)) a b s = .next t ∧
      CondOutcome (cond (valueA a b s) (valueB a b s)) a b s t := by
  simpa only [decide_eq_true_iff] using runCond_spec (fun x y => decide (cond x y)) a b s

/-- The condition of IFB (R184), told bit by bit. -/
theorem and_ne_zero_iff_exists_common_bit (x y : Word) :
    x &&& y ≠ 0 ↔ ∃ k : Nat, x.getLsbD k = true ∧ y.getLsbD k = true := by
  constructor
  · intro hne
    by_contra hnone
    refine hne (BitVec.eq_of_getLsbD_eq fun k _ => ?_)
    simpa using fun hx => eq_false_of_ne_true fun hy => hnone ⟨k, hx, hy⟩
  · rintro ⟨k, hx, hy⟩ hzero
    have hbit : (x &&& y).getLsbD k = true := by rw [BitVec.getLsbD_and, hx, hy, Bool.and_self]
    simp [hzero] at hbit

/-- Settles O27: each of the four is the conditional shape with a test that decides the condition named. -/
theorem conditionalsSkipUnlessTheirTestHolds : Obligations.ConditionalsSkipUnlessTheirTestHolds := by
  intro a b s va vb
  rw [← and_ne_zero_iff_exists_common_bit va vb]
  exact ⟨runCond_decide (fun x y => x = y) a b s,
    runCond_decide (fun x y => x ≠ y) a b s,
    runCond_decide (fun x y => x.toNat > y.toNat) a b s,
    runCond_decide (fun x y => x &&& y ≠ 0) a b s⟩

/-- Settles O12: the decoder evaluates on each of the ten words. -/
theorem wordsOfTheSpecDecode : Obligations.WordsOfTheSpecDecode :=
  ⟨rfl, rfl, rfl, rfl, rfl, rfl, rfl, rfl, rfl, rfl⟩

end Sys2Proof.Machine
end

section
/-! Proofs about HLT, JSR and the reserved non-basic words (44_nonbasic.md): what JSR reads its target from after the
push (R205), the return that `SET PC, POP` makes (R207), and a reserved word as the resolution of its operand (R210). -/

namespace Sys2Proof.Machine

/-! ## The operand of JSR, read after the push -/

/-- A slot named in `s` and read in a later state with the same general registers: SP as `s` has it fixes the slot, and
everything else is as the later state has it (R122, R205). -/
theorem readSlot_slotA_of_regs (op : Operand) {s t : State} (h : t.regs = s.regs) :
    readSlot (slotA op s) t = operandReads op s.sp t.pc t.sp t := by
  have hslot : slotA op s = slotA op ((t.setPc s.pc).setSp s.sp) := by
    obtain ⟨regs, pc, sp, o, cyc, mem, phase, cfg⟩ := s
    cases h
    cases op <;> rfl
  rw [hslot]
  exact readSlot_resolve op t s.pc s.sp t.pc t.sp

/-- What an operand reads as depends on neither the PC nor the CYC of the state it is read in. -/
theorem operandReads_charge_setPc (op : Operand) (sp0 pcEnd spEnd v : Word) (n : Nat) (s : State) :
    operandReads op sp0 pcEnd spEnd ((s.setPc v).charge n) = operandReads op sp0 pcEnd spEnd s := by
  cases op <;> rfl

/-- JSR as a resolution, a push of the PC it leaves, and a jump (R205). -/
theorem exec_jsr_eq (a : Operand) (s : State) :
    exec (.jsr a) s =
      let ret := s.pc + BitVec.ofNat 16 a.ext
      let pushed := ((s.setPc ret).setSp (s.sp + spMove a)).pushWord ret
      .next ((pushed.setPc (readSlot (slotA a s) pushed)).charge (2 + a.ext)) := by
  have hjsr : exec (.jsr a) s = execJsr a s := rfl
  rw [hjsr, execJsr, resolve_state]
  rfl

/-- Settles O33: the push changes one word of memory and SP, and keeps the general registers, so the operand's slot
reads as the operand does in the pushed state. -/
theorem jsrPushesTheReturnAddressThenJumps : Obligations.JsrPushesTheReturnAddressThenJumps := by
  intro a s ret top
  obtain ⟨hsp, htop, hmem, hregs, hpc, ho, -, hphase, hcfg⟩ :=
    pushWord_spec ((s.setPc ret).setSp (s.sp + spMove a)) ret
  have htarget := readSlot_slotA_of_regs a (s := s) hregs
  rw [hpc, hsp, ← operandReads_charge_setPc] at htarget
  exact ⟨_, exec_jsr_eq a s, hsp, htop, hmem, htarget, hregs, ho, hphase, hcfg, execJsr_cyc (exec_jsr_eq a s)⟩

/-! ## The return -/

/-- `SET PC, POP` (0x61C1) jumps to the word on top of the stack and removes it (R207). -/
theorem exec_set_pc_pop (s : State) :
    ∃ t, exec (.set .pc .pop) s = .next t ∧ t.pc = s.memRead s.sp ∧ t.sp = s.sp + 1 ∧ t.regs = s.regs := by
  obtain ⟨t, ht, hpc, -, -, hreg, -, hsp, -⟩ := runPlain_spec 1 (fun _ vb => vb) .pc .pop s
  refine ⟨t, ht, ?_, ?_, RegFile.eq_of_get fun r => hreg r nofun⟩
  · refine Eq.trans hpc ?_
    simp [valueB_eq_operandReads, operandReads, spMove]
  · simpa [spMove] using hsp nofun

/-- Settles O34: the top of the stack that JSR leaves is what `SET PC, POP` takes. -/
theorem returnComesBackAfterTheCall : Obligations.ReturnComesBackAfterTheCall := by
  intro a s t hp hjsr hword
  obtain ⟨t', ht', hsp, hret, -, -, hregs, -, hphase, -⟩ := jsrPushesTheReturnAddressThenJumps a s
  cases ht'.symm.trans hjsr
  have hdecode : decode t.cfg (t.memRead t.pc) (t.memRead (t.pc + 1)) (t.memRead (t.pc + 2)) = .ok (.set .pc .pop) := by
    rw [hword]
    rfl
  obtain ⟨u, hu, hupc, husp, huregs⟩ := exec_set_pc_pop (t.setPc (t.pc + 1))
  refine ⟨u, (step_of_decode_ok (hphase.trans hp) hdecode).trans hu, ?_, ?_, huregs.trans hregs⟩
  · rw [hupc, State.memRead_setPc, State.setPc_sp, hsp, hret]
  · rw [husp, State.setPc_sp, hsp, BitVec.sub_add_cancel]

/-! ## HLT and the reserved words -/

/-- Settles O32: HLT is one update of the phase, and a word with its low ten bits zero is the HLT case of a step. -/
theorem hltSetsThePhaseAndNothingElse : Obligations.HltSetsThePhaseAndNothingElse := by
  refine ⟨fun field s => ⟨_, rfl, rfl, rfl, rfl, rfl, rfl, rfl, rfl, rfl⟩, fun s hp hw => ?_⟩
  obtain ⟨h0, hm⟩ := (and_low_ten_eq_zero_iff _).1 hw
  rcases step_run_cases hp rfl with ⟨-, -, hs⟩ | ⟨-, hne, -⟩ | ⟨mk, -, -, -, -, hmk, -⟩ | ⟨-, hne, -⟩
  · exact hs
  · exact absurd hm hne
  · exact absurd h0 (basicOf_inv hmk).1
  · exact absurd hm hne

/-- The move of SP, told by the encoding: only 0x18 is POP and only 0x1A is PUSH (R110, R112). -/
theorem spMove_of_decodeOperand {e : Nat} {x : Word} {p : Operand} (h : decodeOperand e x = some p) :
    spMove p = if e = 0x18 then 1 else if e = 0x1A then -1 else 0 := by
  have he : e ≤ 63 := (decodeOperand_inv h).2.2.2
  interval_cases e <;> cases h <;> rfl

/-- SP after a decoded operand is resolved, told by its encoding. -/
theorem add_spMove_of_decodeOperand {e : Nat} {x : Word} {p : Operand} (h : decodeOperand e x = some p) (sp : Word) :
    sp + spMove p = if e = 0x18 then sp + 1 else if e = 0x1A then sp - 1 else sp := by
  rw [spMove_of_decodeOperand h]
  split_ifs
  · rfl
  · exact (BitVec.sub_eq_add_neg _ _).symm
  · exact BitVec.add_zero sp

/-- Settles O35: a reserved word is the last case of a step, and with `NONBASIC_RESERVED = NOP` that is the resolution
of its operand and the charge. -/
theorem reservedWordsFaultOrAreSteppedOver : Obligations.ReservedWordsFaultOrAreSteppedOver := by
  intro s w hp h0 hm hj
  have hstep : step s = execReserved w (s.setPc (s.pc + 1)) := by
    rcases step_run_cases hp rfl with ⟨-, hz, -⟩ | ⟨-, -, heq, -⟩ | ⟨mk, -, -, -, -, hmk, -⟩ | ⟨-, -, -, hs⟩
    · exact absurd hz hm
    · exact absurd heq hj
    · exact absurd h0 (basicOf_inv hmk).1
    · exact hs
  rcases execReserved_cases w (s.setPc (s.pc + 1)) with ⟨hmode, hr⟩ | ⟨hmode, a, ha, hr⟩
  · exact ⟨fun _ => hstep.trans hr, fun hnop => by cases hmode.symm.trans hnop⟩
  · refine ⟨fun hfault => (by cases hmode.symm.trans hfault), fun _ => ?_⟩
    rw [resolve_state] at hr
    refine ⟨_, hstep.trans hr, rfl, rfl, rfl, hp, rfl, ?_, ?_, ?_⟩
    · have hlen : len w = 1 + a.ext := by rw [len, if_pos h0, decodeOperand_ext ha]
      rw [hlen, BitVec.ofNat_add, ← BitVec.add_assoc]
      rfl
    · exact add_spMove_of_decodeOperand ha s.sp
    · rw [← decodeOperand_ext ha]
      exact (Nat.add_assoc ..).symm

end Sys2Proof.Machine
end

section
/-! Proofs about faults (60_exceptions.md): a step that faults stands at a reserved non-basic word, no step changes the
parameters, and a run that faults has reached such a step. -/

namespace Sys2Proof.Machine

/-! ## The step that faults -/

/-- A step faults in phase Run only, at a reserved word, with `NONBASIC_RESERVED = FAULT` (R210, R220): every other
word's step answers a next state. -/
theorem step_fault_reserved {s : State} {f : Fault} (h : step s = .fault f) :
    opField (s.memRead s.pc) = 0 ∧ midField (s.memRead s.pc) ≠ 0 ∧ midField (s.memRead s.pc) ≠ s.cfg.jsrOpcode ∧
      s.cfg.nonbasicReserved = .fault := by
  obtain ⟨hhalted, hfaulted, -⟩ := noStepExistsOutsidePhaseRun s
  cases hp : s.phase with
  | halted => cases (hhalted hp).symm.trans h
  | faulted => cases (hfaulted hp).symm.trans h
  | run =>
    obtain ⟨hhlt, -, hgoesOn⟩ := theWordAtPcDecidesHowAStepEnds s hp
    simp only [and_low_four_eq_zero_iff, ne_eq, and_mid_six_eq_zero_iff, ← midField_eq_and] at hgoesOn
    by_cases hw : s.memRead s.pc &&& 0x03FF = 0
    · obtain ⟨t, ht, -⟩ := hhlt hw
      cases ht.symm.trans h
    · by_contra hnot
      obtain ⟨t, ht, -⟩ := hgoesOn ⟨hw, fun ⟨⟨h0, hm, hj⟩, hmode⟩ => hnot ⟨h0, hm, hj, hmode⟩⟩
      cases ht.symm.trans h

/-! ## The parameters along a run -/

theorem exec_basic_cfg {op : Nat} {mk : Operand → Operand → Instr} (hmk : basicOf op = some mk) {a b : Operand}
    {s t : State} (h : exec (mk a b) s = .next t) : t.cfg = s.cfg := by
  rcases exec_basic_shape hmk a b s with ⟨base, f, -, -, he⟩ | ⟨base, f, g, -, -, he⟩ | ⟨test, he⟩
  · obtain ⟨u, hu, -, -, -, -, -, -, -, -, hcfg⟩ := runPlain_spec base f a b s
    cases (he.trans hu).symm.trans h
    exact hcfg
  · obtain ⟨u, hu, -, -, -, -, -, -, -, -, hcfg⟩ := runWithO_spec base f g a b s
    cases (he.trans hu).symm.trans h
    exact hcfg
  · obtain ⟨u, hu, -, -, -, -, -, -, hcfg, -⟩ := runCond_spec test a b s
    cases (he.trans hu).symm.trans h
    exact hcfg

theorem execJsr_cfg {a : Operand} {s t : State} (h : execJsr a s = .next t) : t.cfg = s.cfg := by
  obtain ⟨-, -, -, -, -, -, -, -, hpush⟩ := pushWord_spec (resolve a s).2 (resolve a s).2.pc
  cases h
  exact hpush.trans (resolve_cfg a s)

/-- No step writes the parameters (R6), whatever state it begins in. -/
theorem step_cfg {s t : State} (h : step s = .next t) : t.cfg = s.cfg := by
  rcases (step_next_inv rfl h).2 with ⟨-, -, rfl⟩ | ⟨-, -, -, a, -, hx⟩ | ⟨mk, a, b, hmk, -, hx⟩ |
    ⟨-, -, -, -, a, -, rfl⟩
  · rfl
  · exact (execJsr_cfg hx :)
  · exact (exec_basic_cfg hmk hx :)
  · exact resolve_cfg a (s.setPc (s.pc + 1))

theorem Reaches.cfg_eq {s u : State} (h : Reaches s u) : u.cfg = s.cfg := by
  induction h with
  | start => rfl
  | after _ hs ih => exact (step_cfg hs).trans ih

/-! ## The run that faults -/

/-- A first step before a run: `Reaches` adds steps at the end of a run, `runFor` at its beginning. -/
theorem Reaches.head {s t u : State} (hs : step s = .next t) (h : Reaches t u) : Reaches s u := by
  induction h with
  | start => exact .after .start hs
  | after _ hu ih => exact .after ih hu

/-- A bounded run faults in its first step or, after a step that answers a next state, in the rest of it. -/
theorem runFor_succ_runtimeError_inv {n : Nat} {s : State} {f : Fault} (h : runFor (n + 1) s = .runtimeError f) :
    step s = .fault f ∨ ∃ t, step s = .next t ∧ runFor n t = .runtimeError f := by
  cases hs : step s with
  | next t =>
    cases hp : t.phase with
    | run => exact .inr ⟨t, rfl, by simpa only [runFor, hs, hp] using h⟩
    | halted => simp only [runFor, hs, hp, reduceCtorEq] at h
    | faulted => simp only [runFor, hs, hp, reduceCtorEq] at h
  | fault g =>
    simp only [runFor, hs, RunResult.runtimeError.injEq] at h
    exact .inl (congrArg _ h)
  | refused r => simp only [runFor, hs, reduceCtorEq] at h

/-- A run that faults reached the state whose step faults. -/
theorem reaches_of_runFor_runtimeError {n : Nat} {s : State} {f : Fault} (h : runFor n s = .runtimeError f) :
    ∃ u, Reaches s u ∧ step u = .fault f := by
  induction n generalizing s with
  | zero => cases h
  | succ n ih =>
    rcases runFor_succ_runtimeError_inv h with hs | ⟨t, hs, hrest⟩
    · exact ⟨s, .start, hs⟩
    · obtain ⟨u, hu, hfault⟩ := ih hrest
      exact ⟨u, hu.head hs, hfault⟩

/-- A run that faults began with `NONBASIC_RESERVED = FAULT` and reached the reserved word that its fault names. -/
theorem runFor_runtimeError_reserved {n : Nat} {s : State} {f : Fault} (h : runFor n s = .runtimeError f) :
    ∃ u, Reaches s u ∧ f = .illegalInstruction (u.memRead u.pc) ∧ opField (u.memRead u.pc) = 0 ∧
      midField (u.memRead u.pc) ≠ 0 ∧ midField (u.memRead u.pc) ≠ s.cfg.jsrOpcode ∧
      s.cfg.nonbasicReserved = .fault := by
  obtain ⟨u, hu, hfault⟩ := reaches_of_runFor_runtimeError h
  have hword := step_fault_reserved hfault
  rw [hu.cfg_eq] at hword
  exact ⟨u, hu, step_fault_inv hfault, hword⟩

/-- Settles O46: a run that faults reached a step that faults, which stands at a reserved word; the parameters there
are those the run began with, so with `NONBASIC_RESERVED = NOP` there is no such step. -/
theorem onlyReservedWordsEndARunInAFault : Obligations.OnlyReservedWordsEndARunInAFault := by
  refine ⟨fun n s f h => ⟨by rw [h, readFinal], runFor_runtimeError_reserved h⟩, fun s hnop n f h => ?_⟩
  obtain ⟨u, -, -, -, -, -, hmode⟩ := runFor_runtimeError_reserved h
  cases hmode.symm.trans hnop

end Sys2Proof.Machine
end

section
/-! Proofs about mount, reset and runs (70_reset_and_hazards.md R250 to R254), and about CYC, which no step reads
(R271, 10_state.md R29). -/

namespace Sys2Proof.Machine

/-! ## Every operation of a step commutes with more cycles on CYC -/

section
variable (n : Nat) (s : State)

theorem resolve_addCyc (op : Operand) :
    resolve op (s.addCyc n) = ((resolve op s).1, (resolve op s).2.addCyc n) := by cases op <;> rfl

@[simp] theorem readSlot_addCyc (sl : Slot) : readSlot sl (s.addCyc n) = readSlot sl s := by
  cases sl with
  | reg r => cases r <;> rfl
  | mem addr => rfl
  | imm v => rfl

theorem writeSlot_addCyc (sl : Slot) (v : Word) : writeSlot sl v (s.addCyc n) = (writeSlot sl v s).addCyc n := by
  cases sl with
  | reg r => cases r <;> rfl
  | mem addr => rfl
  | imm v => rfl

@[simp] theorem slotA_addCyc (a : Operand) : slotA a (s.addCyc n) = slotA a s := by
  rw [slotA, resolve_addCyc, slotA]

@[simp] theorem slotB_addCyc (a b : Operand) : slotB a b (s.addCyc n) = slotB a b s := by
  rw [slotB, resolve_addCyc, resolve_addCyc, slotB]

theorem resolved_addCyc (a b : Operand) : resolved a b (s.addCyc n) = (resolved a b s).addCyc n := by
  rw [resolved, resolve_addCyc, resolve_addCyc, resolved]

@[simp] theorem valueA_addCyc (a b : Operand) : valueA a b (s.addCyc n) = valueA a b s := by
  rw [valueA, resolved_addCyc, slotA_addCyc, readSlot_addCyc, valueA]

@[simp] theorem valueB_addCyc (a b : Operand) : valueB a b (s.addCyc n) = valueB a b s := by
  rw [valueB, resolved_addCyc, slotB_addCyc, readSlot_addCyc, valueB]

/-- The charge adds to CYC and reads nothing of it (R270), so the order of two additions is all there is to it. -/
theorem State.charge_addCyc (k : Nat) : (s.addCyc n).charge k = (s.charge k).addCyc n := by
  simp only [State.charge, State.addCyc, Nat.add_right_comm]

theorem State.setO_addCyc (v : Word) : (s.addCyc n).setO v = (s.setO v).addCyc n := rfl

theorem State.setPc_addCyc (v : Word) : (s.addCyc n).setPc v = (s.setPc v).addCyc n := rfl

theorem State.skip_addCyc : (s.addCyc n).skip = s.skip.addCyc n := rfl

theorem State.pushWord_addCyc (v : Word) : (s.addCyc n).pushWord v = (s.pushWord v).addCyc n := rfl

/-! ## Every instruction commutes with more cycles on CYC -/

variable (a b : Operand)

theorem runPlain_addCyc (base : Nat) (f : Word → Word → Word) :
    runPlain base f a b (s.addCyc n) = moreCycles n (runPlain base f a b s) := by
  simp only [runPlain, slotA_addCyc, valueA_addCyc, valueB_addCyc, resolved_addCyc, writeSlot_addCyc,
    State.charge_addCyc, moreCycles]

theorem runWithO_addCyc (base : Nat) (f g : Word → Word → Word) :
    runWithO base f g a b (s.addCyc n) = moreCycles n (runWithO base f g a b s) := by
  simp only [runWithO, slotA_addCyc, valueA_addCyc, valueB_addCyc, resolved_addCyc, writeSlot_addCyc,
    State.setO_addCyc, State.charge_addCyc, moreCycles]

theorem runCond_addCyc (test : Word → Word → Bool) :
    runCond test a b (s.addCyc n) = moreCycles n (runCond test a b s) := by
  simp only [runCond, valueA_addCyc, valueB_addCyc, resolved_addCyc, State.skip_addCyc, State.charge_addCyc]
  split <;> rfl

theorem execJsr_addCyc : execJsr a (s.addCyc n) = moreCycles n (execJsr a s) := by
  simp only [execJsr, resolve_addCyc, State.addCyc_pc, State.pushWord_addCyc, slotA_addCyc, readSlot_addCyc,
    State.setPc_addCyc, State.charge_addCyc, moreCycles]

/-- Only the parameters and the shape of the instruction decide what is run, and neither is CYC. -/
theorem exec_addCyc (i : Instr) : exec i (s.addCyc n) = moreCycles n (exec i s) := by
  cases i with
  | set a b | mod a b | and a b | or a b | xor a b =>
    simp only [exec_set, exec_mod, exec_and, exec_or, exec_xor, runPlain_addCyc]
  | add a b | sub a b | mul a b | div a b | shl a b | shr a b =>
    simp only [exec_add, exec_sub, exec_mul, exec_div, exec_shl, exec_shr, State.addCyc_cfg, runWithO_addCyc]
  | ife a b | ifn a b | ifg a b | ifb a b =>
    simp only [exec_ife, exec_ifn, exec_ifg, exec_ifb, runCond_addCyc]
  | hlt field => rfl
  | jsr a => exact execJsr_addCyc n s a

theorem execReserved_addCyc (w : Word) : execReserved w (s.addCyc n) = moreCycles n (execReserved w s) := by
  rcases execReserved_cases w s with ⟨hmode, hr⟩ | ⟨hmode, a, ha, -⟩
  · rw [hr, execReserved, State.addCyc_cfg, hmode]
    rfl
  · simp only [execReserved, State.addCyc_cfg, hmode, State.memRead_addCyc, State.addCyc_pc, ha, resolve_addCyc,
      State.charge_addCyc, moreCycles]

theorem execReject_addCyc (r : DecodeReject) : execReject r (s.addCyc n) = moreCycles n (execReject r s) := by
  cases r with
  | badOperandEncoding enc => rfl
  | reservedNonBasic w => exact execReserved_addCyc n s w

theorem fetch_addCyc : fetch (s.addCyc n) = ((fetch s).1, (fetch s).2.addCyc n) := rfl

end

/-- Settles O42: the fetch, every instruction and the reserved words commute with more cycles on CYC. -/
theorem noStepDependsOnCyc : Obligations.NoStepDependsOnCyc := by
  intro n s
  rw [step, step, fetch_addCyc, State.addCyc_phase]
  cases s.phase with
  | halted => rfl
  | faulted => rfl
  | run =>
    obtain ⟨d, t⟩ := fetch s
    cases d with
    | ok i => exact exec_addCyc n t i
    | error r => exact execReject_addCyc n t r

/-! ## Mount -/

/-- The state that a mount of an image that fits answers (R250). -/
theorem mount_of_length_le (cfg : Config) {image : List Word} (h : image.length ≤ 65536) :
    mount cfg image = .next { State.reset with mem := Memory.ofImage 0 image, cfg := cfg } := if_pos h

theorem mount_of_length_gt (cfg : Config) {image : List Word} (h : 65536 < image.length) :
    mount cfg image = .refused (.imageTooLong image.length) := if_neg (Nat.not_le.2 h)

/-- The word at distance `k` from the address where an image is loaded, 0 past its end. -/
theorem Memory.readAt_ofImage {n : Nat} {image : List Word} (h : n + image.length ≤ wordCount) (k : Nat) :
    Memory.readAt (Memory.ofImage n image) (n + k) = image.getD k 0 := by
  induction image generalizing n k with
  | nil => rfl
  | cons v vs ih =>
    have hvs : n + 1 + vs.length ≤ wordCount := by
      rw [List.length_cons] at h
      omega
    have hfirst : Memory.readAt (Memory.ofImage (n + 1) vs) n = 0 :=
      Memory.readAt_of_lt (Memory.wfFrom_ofImage hvs) (Nat.lt_succ_self n)
    rw [Memory.ofImage]
    cases k with
    | zero =>
      split
      next hv => rw [hv]; exact hfirst
      next => exact if_pos rfl
    | succ k =>
      have hrest : Memory.readAt (Memory.ofImage (n + 1) vs) (n + (k + 1)) = vs.getD k 0 := by
        rw [← ih hvs k]
        congr 1
        omega
      rw [List.getD_cons_succ, ← hrest]
      split
      next => rfl
      next => exact if_neg (by omega)

/-- Settles O1: the registers are those of the reset state, and each address reads as the image's word there. -/
theorem mountSetsEveryPieceOfState : Obligations.MountSetsEveryPieceOfState := by
  intro cfg image h
  have hload : 0 + image.length ≤ wordCount := (Nat.zero_add _).trans_le h
  refine ⟨_, mount_of_length_le cfg h, fun addr => ?_, fun r => ?_, rfl, rfl, rfl, rfl, rfl, rfl⟩
  · have hread := Memory.readAt_ofImage hload addr.toNat
    rwa [Nat.zero_add] at hread
  · cases r <;> rfl

/-- Settles O5: an image that fits is loaded in canonical form, and no other is mounted. -/
theorem mountMeetsTheInvariant : Obligations.MountMeetsTheInvariant := by
  intro cfg image t hcfg ht
  rcases Nat.lt_or_ge 65536 image.length with hlong | hfits
  · cases (mount_of_length_gt cfg hlong).symm.trans ht
  · cases (mount_of_length_le cfg hfits).symm.trans ht
    have hmem : Memory.wf (Memory.ofImage 0 image) = true := 
      Memory.wfFrom_ofImage ((Nat.zero_add _).trans_le hfits)
    exact ⟨hmem, hcfg⟩

/-- Settles O2: the empty image lists no word, so the word at PC is 0, an HLT word. -/
theorem resetIsTheMountOfTheEmptyImage : Obligations.ResetIsTheMountOfTheEmptyImage := by
  have hword : State.reset.memRead State.reset.pc &&& 0x03FF = 0 := rfl
  exact ⟨mount_of_length_le Config.default (Nat.zero_le _), (theWordAtPcDecidesHowAStepEnds State.reset rfl).1 hword⟩

/-- Settles O3: the two cases of a mount. -/
theorem mountRefusesExactlyTheImagesLongerThanMemory : Obligations.MountRefusesExactlyTheImagesLongerThanMemory := by
  intro cfg image
  exact ⟨mount_of_length_gt cfg, fun h => ⟨_, mount_of_length_le cfg h⟩⟩

/-! ## Runs that succeed -/

section
variable {n : Nat} {s t u : State}

/-- A run whose first step halts the machine succeeds there (R252). -/
theorem runFor_succ_of_halted (hs : step s = .next t) (hp : t.phase = .halted) : runFor (n + 1) s = .success t := by
  simp only [runFor, hs, hp]

/-- A run whose first step leaves the machine in phase Run goes on from there (R252). -/
theorem runFor_succ_of_run (hs : step s = .next t) (hp : t.phase = .run) : runFor (n + 1) s = runFor n t := by
  simp only [runFor, hs, hp]

/-- A bounded run succeeds in its first step or, after a step that stays in phase Run, in the rest of it. -/
theorem runFor_succ_success_inv (h : runFor (n + 1) s = .success t) :
    (step s = .next t ∧ t.phase = .halted) ∨ ∃ u, step s = .next u ∧ u.phase = .run ∧ runFor n u = .success t := by
  cases hs : step s with
  | next u =>
    cases hp : u.phase with
    | run => exact .inr ⟨u, rfl, hp, (runFor_succ_of_run hs hp).symm.trans h⟩
    | halted =>
      cases (runFor_succ_of_halted hs hp).symm.trans h
      exact .inl ⟨rfl, hp⟩
    | faulted => simp only [runFor, hs, hp, reduceCtorEq] at h
  | fault f => simp only [runFor, hs, reduceCtorEq] at h
  | refused r => simp only [runFor, hs, reduceCtorEq] at h

/-- A larger bound does not change a run that has succeeded. -/
theorem runFor_success_mono {m : Nat} (h : runFor m s = .success t) (hmn : m ≤ n) : runFor n s = .success t := by
  induction m generalizing n s with
  | zero => cases h
  | succ m ih =>
    obtain ⟨n, rfl⟩ := Nat.exists_eq_add_of_le' (Nat.le_trans (Nat.le_add_left 1 m) hmn)
    rcases runFor_succ_success_inv h with ⟨hs, hp⟩ | ⟨u, hs, hp, hrest⟩
    · exact runFor_succ_of_halted hs hp
    · rw [runFor_succ_of_run hs hp]
      exact ih hrest (Nat.le_of_succ_le_succ hmn)

/-- A run that succeeds reached the state whose step halts the machine. -/
theorem reaches_of_runFor_success (h : runFor n s = .success t) :
    ∃ u, Reaches s u ∧ step u = .next t ∧ t.phase = .halted := by
  induction n generalizing s with
  | zero => cases h
  | succ n ih =>
    rcases runFor_succ_success_inv h with ⟨hs, hp⟩ | ⟨v, hs, -, hrest⟩
    · exact ⟨s, .start, hs, hp⟩
    · obtain ⟨u, hu, hlast⟩ := ih hrest
      exact ⟨u, hu.head hs, hlast⟩

/-- A run that passes through `u` in phase Run ends as the run from `u` does. -/
theorem Reaches.endsWith (h : Reaches s u) (hp : u.phase = .run) (hu : EndsWith u t) : EndsWith s t := by
  induction h with
  | start => exact hu
  | after _ hs ih =>
    obtain ⟨n, hn⟩ := hu
    exact ih (step_next_inv rfl hs).1 ⟨n + 1, (runFor_succ_of_run hs hp).trans hn⟩

/-- A step halts the machine exactly when it executes HLT: it then moves PC past the word and changes nothing else
(R201, R254). -/
theorem step_halts_iff : step s = .next t ∧ t.phase = .halted ↔
    s.phase = .run ∧ s.memRead s.pc &&& 0x03FF = 0 ∧ t = { s with pc := s.pc + 1, phase := .halted } := by
  constructor
  · rintro ⟨hs, hhalted⟩
    have hp := (step_next_inv rfl hs).1
    obtain ⟨-, hfault, hgoesOn⟩ := theWordAtPcDecidesHowAStepEnds s hp
    by_cases hw : s.memRead s.pc &&& 0x03FF = 0
    · cases (hltSetsThePhaseAndNothingElse.2 s hp hw).symm.trans hs
      exact ⟨hp, hw, rfl⟩
    · have hnext := hgoesOn ⟨hw, fun hreserved => by cases (hfault hreserved).1.symm.trans hs⟩
      obtain ⟨u, hu, hrun⟩ := hnext
      cases hu.symm.trans hs
      cases hrun.symm.trans hhalted
  · rintro ⟨hp, hw, rfl⟩
    exact ⟨hltSetsThePhaseAndNothingElse.2 s hp hw, rfl⟩

end

/-- Settles O44: a run succeeds in the step that halts the machine, and that step executes HLT. -/
theorem aRunSucceedsExactlyWhenItExecutesHlt : Obligations.ARunSucceedsExactlyWhenItExecutesHlt := by
  refine fun s _ => ⟨fun t => ⟨?_, ?_⟩, fun n r h => ?_⟩
  · rintro ⟨n, hn⟩
    obtain ⟨u, hu, hlast⟩ := reaches_of_runFor_success hn
    exact ⟨u, hu, step_halts_iff.1 hlast⟩
  · rintro ⟨u, hu, hlast⟩
    obtain ⟨hs, hhalted⟩ := step_halts_iff.2 hlast
    exact hu.endsWith hlast.1 ⟨1, runFor_succ_of_halted hs hhalted⟩
  · cases hr : runFor n s with
    | success t =>
      rw [hr] at h
      exact ⟨t, ⟨n, hr⟩, (Option.some.inj h).symm⟩
    | runtimeError f => simp only [hr, readFinal, reduceCtorEq] at h
    | unfinished t => simp only [hr, readFinal, reduceCtorEq] at h
    | notRunnable r => simp only [hr, readFinal, reduceCtorEq] at h

/-- Settles O45: a larger bound does not change a run that has succeeded, and its final state is the one read. -/
theorem theFinalStateIsUnique : Obligations.TheFinalStateIsUnique := by
  intro m n s t h hmn
  have hn := runFor_success_mono h hmn
  exact ⟨hn, by rw [hn]; rfl⟩

end Sys2Proof.Machine
end
